-- ==== Sys2Proof/Syntax.lean ====
section
/-! DEFINITION. The commands: one constructor per row of spec/opcode_table.json (rules R3, R57). -/

namespace Sys2Proof

/-- A command the host can issue. COMPRESS is internal and has no encoding (R67's closing remark,
R82), so it is no constructor. -/
inductive Instr where
  /-- INIT: start a message (R87). -/
  | init
  /-- UPDATE: absorb `n` bytes of the data-in channel, n = zext_64(LEN) (R59, R91). -/
  | update (n : Nat)
  /-- FINAL: pad, compress and emit the digest (R103). -/
  | final
  deriving DecidableEq, Repr

end Sys2Proof
end

