-- ==== Sys2Proof/WellFormed.lean ====
section
/-! DEFINITION. Which commands have an encoding (rules R8, R59). -/

namespace Sys2Proof

/-- INIT and FINAL have no operand; an UPDATE carries a count n with 0 ≤ n ≤ 2^32 − 1 (R8, R59). -/
def Instr.wf : Instr → Bool
  | .init => true
  | .update n => decide (n ≤ 2 ^ 32 - 1)
  | .final => true

end Sys2Proof
end

