-- ==== Sys2Proof/Word.lean ====
section
/-! DEFINITION. The machine's words: bytes, 32-bit words (rule R5, R9: every value is unsigned). -/

namespace Sys2Proof

/-- A byte: 8 bits (R12). -/
abbrev Byte := BitVec 8

/-- A state word, schedule word, working variable or round constant: WORD_BITS = 32 (R5).
Its `+` is addition modulo 2^32 (R11, R74). -/
abbrev Word := BitVec 32

/-- A command descriptor: one 64-bit value (R56). -/
abbrev Descriptor := BitVec 64

end Sys2Proof
end

