-- ==== Sys2Proof/Decode.lean ====
section
/-! DEFINITION. The decoder of rule R64, total on every 64-bit descriptor, and the encoder of R56 to
R59 and the table of R67's file (30_encoding.md §5). -/

namespace Sys2Proof

/-- Why a descriptor is illegal (R61). -/
inductive IllegalReason where
  /-- RSVD ≠ 0 (R58). -/
  | reservedBits
  /-- OP is 0x0 or in 0x4..0xF (R57). -/
  | reservedOp
  /-- OP is INIT or FINAL and LEN ≠ 0 (R59). -/
  | lengthNotZero
  deriving DecidableEq, Repr

/-- What R64's decoder returns: a command, or Illegal with the clause of R61 that holds. -/
inductive Decoded where
  | command (i : Instr)
  | illegal (why : IllegalReason)
  deriving DecidableEq, Repr

/-- The field OP, w[3:0] (R56). -/
def opField (w : Descriptor) : BitVec 4 := w.extractLsb' 0 4

/-- The field RSVD, w[31:4] (R56). -/
def rsvdField (w : Descriptor) : BitVec 28 := w.extractLsb' 4 28

/-- The field LEN, w[63:32] (R56). -/
def lenField (w : Descriptor) : BitVec 32 := w.extractLsb' 32 32

/-- The decoder (R64). LEN is zero-extended, never sign-extended (R60). -/
def decode (w : Descriptor) : Decoded :=
  if rsvdField w ≠ 0 then .illegal .reservedBits
  else if opField w = 1 ∧ lenField w = 0 then .command .init
  else if opField w = 2 then .command (.update (lenField w).toNat)
  else if opField w = 3 ∧ lenField w = 0 then .command .final
  else if opField w = 1 ∨ opField w = 3 then .illegal .lengthNotZero
  else .illegal .reservedOp

/-- The command a descriptor stands for, or none where the descriptor is illegal. -/
def Decoded.toInstr : Decoded → Option Instr
  | .command i => some i
  | .illegal _ => none

/-- A descriptor from its fields, RSVD = 0 (R56, R58). -/
def packFields (op : BitVec 4) (len : BitVec 32) : Descriptor :=
  (len.setWidth 64 <<< 32) ||| op.setWidth 64

/-- The encoder: OP values of R57, LEN of R59. For an ill-formed count the field keeps its low 32
bits; `decode` inverts it on well-formed commands only. -/
def encode : Instr → Descriptor
  | .init => packFields 1 0
  | .update n => packFields 2 (BitVec.ofNat 32 n)
  | .final => packFields 3 0

/-- The command this decoder reads from a descriptor whose low `nbits` bits are `w` and whose other
bits are 0; a descriptor is one 64-bit value and has no byte order of its own (R47, R56). -/
def decodeTableWord (nbits w : Nat) : Option Instr :=
  (decode (BitVec.ofNat 64 (w % 2 ^ nbits))).toInstr

end Sys2Proof
end

