-- ==== Sys2Proof/Config.lean ====
section
/-! DEFINITION. What the spec leaves open: the one free value, BUF_LEN after FINAL (rule R111, U10).

The fixed parameters of R5 are the widths and counts written in the model. N_ENGINES (R6) is the
argument of `Sys2Proof.Machine.Platform`; PLATFORM_BINDING (R6) is the argument `binding` of
`Sys2Proof.Machine.Platform.access`. -/

namespace Sys2Proof

/-- The draw R111 makes for BUF_LEN at the end of a FINAL, "an unconstrained draw in 0..64": for the
k-th draw of a machine's life, some value in 0..64. It has no body, so nothing can be proved of a
single draw but its bound. DESIGN CHOICE: it is one sequence, so two engines of a platform, or two runs,
whose counts of draws are equal draw equal values; the spec leaves each draw unconstrained (assumption
log 8). -/
opaque Config.finalBufLen : Nat → Fin 65

end Sys2Proof
end

