-- ==== Sys2Proof/Machine/State.lean ====
section
/-! DEFINITION. The engine's state and its reset (10_state.md, rules R16 to R38; R139), the host's
coming moves, and the reasons a step can stop. -/

namespace Sys2Proof.Machine

/-- The working state H[0..7], eight 32-bit registers (R17). -/
abbrev HashState := Vector Word 8

/-- The buffer space BUF[0..63] (R18, R40) as a list of (address, byte) pairs. -/
abbrev Memory := List Host.Cell

/-- What an address that is not listed reads as: 0x00, the byte R139 gives every BUF[i] at reset. -/
def Memory.unlisted : Byte := 0x00

/-- The canonical form: addresses strictly rising, each one in 0..63 (R40), and no entry equal to what
an unlisted address reads as. -/
abbrev Memory.wf (m : Memory) : Prop :=
  m.Pairwise (fun c d => c.1 < d.1) ∧ ∀ c ∈ m, c.1 < 64 ∧ c.2 ≠ Memory.unlisted

/-- PHASE, the lifecycle position, a ghost (R22). -/
inductive Phase where
  | uninit
  | initialized
  | accumulating
  | finalized
  deriving DecidableEq, Repr

/-- PHASE's 2-bit encoding (R22). -/
def Phase.code : Phase → BitVec 2
  | .uninit => 0
  | .initialized => 1
  | .accumulating => 2
  | .finalized => 3

/-- FAULT, the model's fault record, a ghost (R25), with the info R119 says is recorded. -/
inductive FaultRecord where
  /-- NONE: no fault. -/
  | none
  /-- An illegal descriptor (R120): the descriptor. -/
  | illegalCommand (w : Descriptor)
  /-- UPDATE or FINAL in UNINIT or FINALIZED (R121): PHASE and the command. -/
  | contractViolation (phase : Phase) (cmd : Instr)
  /-- BUF_LEN > 63 on entry to UPDATE or FINAL (R122), the hardware's one abort: BUF_LEN. -/
  | invariantAbort (bufLen : BitVec 7)
  /-- An UPDATE whose total does not fit in 64 bits (R124): BIT_LEN and n. -/
  | lengthOverflow (bitLen : BitVec 64) (n : Nat)
  deriving DecidableEq, Repr

/-- FAULT's 3-bit code (R25, R119). -/
def FaultRecord.code : FaultRecord → BitVec 3
  | .none => 0
  | .illegalCommand _ => 1
  | .contractViolation _ _ => 2
  | .invariantAbort _ => 3
  | .lengthOverflow _ _ => 4

/-- One move of the host (the table of R148). Reading READY and HALTED changes nothing and is no move. -/
inductive HostMove where
  /-- A descriptor on the command port (R56). -/
  | command (w : Descriptor)
  /-- One byte on the data-in channel (R42). -/
  | data (b : Byte)
  /-- The host takes one byte from the digest-out channel (R43, R114). -/
  | take
  /-- Power-on reset (R139). -/
  | powerOnReset
  deriving DecidableEq, Repr

/-- The state of one engine and its host. The schedule W, the working variables, T1, T2 and t live
inside one COMPRESS and never outlive it (R33, R34), so no field holds them. -/
structure State where
  /-- H[0..7] (R17). -/
  h : HashState
  /-- BUF[0..63] (R18). -/
  buf : Memory
  /-- BUF_LEN, 7 bits (R19). -/
  bufLen : BitVec 7
  /-- BIT_LEN, 64 bits (R20). -/
  bitLen : BitVec 64
  /-- HALTED, 1 bit, also a status output (R21, R26). -/
  halted : Bool
  /-- PHASE (R22). -/
  phase : Phase
  /-- FAULT (R25). -/
  fault : FaultRecord
  /-- The UPDATE whose descriptor the engine has taken and whose data has not all arrived (R102).
  Assumption log 2. -/
  pending : Option Instr
  /-- The bytes on the data-in channel, first sent first (R42). -/
  dataIn : List Byte
  /-- The bytes on the digest-out channel that the host has not taken, first emitted first (R43). -/
  digestOut : List Byte
  /-- What the host is going to do, first move first. Assumption log 1. -/
  host : List HostMove
  /-- The digest bytes the host has taken in this run, that is since power-on reset, first taken
  first (R145). Assumption log 1. -/
  received : List Byte
  /-- The model's own ghost: how many COMPRESS calls the engine has made (R151). Assumption log 9. -/
  compressCalls : Nat
  /-- The model's own counter of free values drawn (R111). Assumption log 8. -/
  draws : Nat
  deriving DecidableEq, Repr

/-- Why the machine stops. -/
inductive Fault where
  /-- HALTED = 1: the engine takes no step until power-on reset (R126). Raised by `State.taken` and
  the host port. Safe: the spec says that it takes no step. -/
  | halted
  /-- FAULT ≠ NONE: a faulted state takes no further step (R25, R118). Raised by `State.taken` and the
  host port. Safe: nothing is claimed of what the hardware does then (R117). -/
  | faulted (record : FaultRecord)
  deriving DecidableEq, Repr

/-- Where the model has no move. -/
inductive Refusal where
  /-- An instruction without a meaning; no arm of `exec` answers it. Safe. -/
  | notModelled (mnemonic : String)
  /-- The host sends fewer bytes than the UPDATE in flight owes it: "no move in the model" (R102,
  R148, U7). Raised by the host port. Safe: no claim covers such a host. -/
  | dataNotSent
  /-- The host sends a byte that no UPDATE in flight owes: before the UPDATE's descriptor, or past its
  LEN bytes; a length mismatch, "no move in the model" (R123, R148, U7). Raised by the host port.
  Safe: no claim covers such a host. -/
  | dataNotOwed
  /-- The host does not take the digest: "no move in the model" (R114, R148, U8). Raised by the host
  port. Safe. -/
  | digestNotTaken
  /-- The host issues a descriptor while READY = 0: "no move in the model" (R147, R148, U9). Raised by
  the host port. Safe. -/
  | issuedWhileBusy
  deriving DecidableEq, Repr

/-- The state after power-on reset (R139): H is 0, not IV, and PHASE is UNINIT (R140). The host's
moves, what it has received and the model's own counters start empty (assumption logs 1, 2, 8, 9). -/
def State.reset : State where
  h := #v[0, 0, 0, 0, 0, 0, 0, 0]
  buf := []
  bufLen := 0
  bitLen := 0
  halted := false
  phase := .uninit
  fault := .none
  pending := none
  dataIn := []
  digestOut := []
  host := []
  received := []
  compressCalls := 0
  draws := 0

end Sys2Proof.Machine
end

