-- ==== Sys2Proof/Machine/Functions.lean ====
section
/-! DEFINITION. Word and byte operations (rules R11, R12) and the six functions of the transform
(rules R68 to R73). They read no state, write no flag and raise nothing. -/

namespace Sys2Proof.Machine

/-- ROTR(x, k) for 0 < k < 32 (R11). -/
def rotr (x : Word) (k : Nat) : Word := (x >>> k) ||| (x <<< (32 - k))

/-- SHR(x, k), the logical right shift (R11). -/
def shr (x : Word) (k : Nat) : Word := x >>> k

/-- Ch, "choose" (R68). -/
def choose (x y z : Word) : Word := (x &&& y) ^^^ (~~~x &&& z)

/-- Maj, "majority" (R69). -/
def majority (x y z : Word) : Word := (x &&& y) ^^^ (x &&& z) ^^^ (y &&& z)

/-- Σ0, applied to a (R70). -/
def bigSigma0 (x : Word) : Word := rotr x 2 ^^^ rotr x 13 ^^^ rotr x 22

/-- Σ1, applied to e (R71). -/
def bigSigma1 (x : Word) : Word := rotr x 6 ^^^ rotr x 11 ^^^ rotr x 25

/-- σ0, applied to the schedule word fifteen back (R72). -/
def smallSigma0 (x : Word) : Word := rotr x 7 ^^^ rotr x 18 ^^^ shr x 3

/-- σ1, applied to the schedule word two back (R73). -/
def smallSigma1 (x : Word) : Word := rotr x 17 ^^^ rotr x 19 ^^^ shr x 10

/-- be32(b0, b1, b2, b3) = b0·2^24 + b1·2^16 + b2·2^8 + b3: the first byte is the most significant
(R12). -/
def be32 (b0 b1 b2 b3 : Byte) : Word :=
  BitVec.ofNat 32 (b0.toNat * 2 ^ 24 + b1.toNat * 2 ^ 16 + b2.toNat * 2 ^ 8 + b3.toNat)

/-- be32bytes(w): w[31:24], w[23:16], w[15:8], w[7:0] (R12). -/
def be32bytes (w : Word) : List Byte :=
  [w.extractLsb' 24 8, w.extractLsb' 16 8, w.extractLsb' 8 8, w.extractLsb' 0 8]

/-- be64bytes(v): the eight bytes of v, most significant first (R12). -/
def be64bytes (v : BitVec 64) : List Byte :=
  be32bytes (v.extractLsb' 32 32) ++ be32bytes (v.extractLsb' 0 32)

end Sys2Proof.Machine
end

