-- ==== Sys2Proof/Machine/Compress.lean ====
section
/-! DEFINITION. COMPRESS, the internal transform (rules R76 to R86). It reads H, the 64 bytes of the
block and the table K, and gives the new H; it is total and raises nothing (R83, R84). -/

namespace Sys2Proof.Machine

/-- The working variables a..h (R34). -/
structure WorkVars where
  a : Word
  b : Word
  c : Word
  d : Word
  e : Word
  f : Word
  g : Word
  h : Word
  deriving DecidableEq, Repr

/-- W[t] for t in 0..15: the block's bytes 4t to 4t+3, big-endian (R44, R76). -/
def blockWord (B : List Byte) (t : Nat) : Word :=
  be32 (B.getD (4 * t) 0) (B.getD (4 * t + 1) 0) (B.getD (4 * t + 2) 0) (B.getD (4 * t + 3) 0)

/-- The next schedule word, from the words before it: with t of them,
W[t] = σ1(W[t−2]) + W[t−7] + σ0(W[t−15]) + W[t−16] (R77). -/
def nextScheduleWord (W : List Word) : Word :=
  smallSigma1 (W.getD (W.length - 2) 0) + W.getD (W.length - 7) 0
    + smallSigma0 (W.getD (W.length - 15) 0) + W.getD (W.length - 16) 0

/-- `k` schedule words more, in increasing t (R77). -/
def extendSchedule : Nat → List Word → List Word
  | 0, W => W
  | k + 1, W => extendSchedule k (W ++ [nextScheduleWord W])

/-- The message schedule W[0..63] of a 64-byte block (R33, R76, R77). -/
def schedule (B : List Byte) : List Word :=
  extendSchedule 48 ((List.range 16).map (blockWord B))

/-- Seeding: a..h from H[0..7] in order (R78). -/
def seedVars (H : HashState) : WorkVars := ⟨H[0], H[1], H[2], H[3], H[4], H[5], H[6], H[7]⟩

/-- One round with the constant K[t] and the schedule word W[t]; every right-hand side reads the
values from before the round (R79). -/
def roundStep (v : WorkVars) (kt wt : Word) : WorkVars :=
  let T1 := v.h + bigSigma1 v.e + choose v.e v.f v.g + kt + wt
  let T2 := bigSigma0 v.a + majority v.a v.b v.c
  { a := T1 + T2, b := v.a, c := v.b, d := v.c, e := v.d + T1, f := v.e, g := v.f, h := v.g }

/-- The rounds t = 0, 1, …, each once, round t with K[t] and W[t] (R80). -/
def runRounds (v : WorkVars) (W : List Word) : WorkVars :=
  (roundConstants.zip W).foldl (fun u kw => roundStep u kw.1 kw.2) v

/-- The feed-forward: H[i] + (a..h)[i], each modulo 2^32 (R81). -/
def feedForward (H : HashState) (v : WorkVars) : HashState :=
  #v[H[0] + v.a, H[1] + v.b, H[2] + v.c, H[3] + v.d, H[4] + v.e, H[5] + v.f, H[6] + v.g, H[7] + v.h]

/-- COMPRESS(H, B) (R82): B is the block's 64 bytes, from BUF or from a window of UPDATE's data; where
they come from makes no difference (R85). -/
def compress (H : HashState) (B : List Byte) : HashState :=
  feedForward H (runRounds (seedVars H) (schedule B))

end Sys2Proof.Machine
end

