-- ==== Sys2Proof/Machine/Ops.lean ====
section
/-! DEFINITION. The named operations over the state: the buffer space (R13, R40), the channels (R42,
R43), COMPRESS on the state (R82), recording a fault and the abort (R118, R122, R127), and power-on
reset (R139), the only way out of either. -/

namespace Sys2Proof.Machine

/-- The byte at one address of the buffer space. -/
def Memory.read : Memory → Nat → Byte
  | [], _ => Memory.unlisted
  | (x, v) :: m, a => if x = a then v else Memory.read m a

/-- The canonical memory that holds `f a` at every address a in 0..63. -/
def Memory.tabulate (f : Nat → Byte) : Memory :=
  (List.range 64).filterMap fun a => if f a = Memory.unlisted then none else some (a, f a)

/-- MemRead(a, n): the bytes BUF[a..a+n−1] (R13). -/
def Memory.readBytes (m : Memory) (a n : Nat) : List Byte :=
  (List.range n).map fun i => m.read (a + i)

/-- MemWrite(a, n, d) with n = |d|: BUF[a..a+n−1] become the bytes of d (R13). It is defined for
a + n ≤ 64, and no rule makes another access (R40): a BUF_LEN above 63 aborts first (R122). -/
def Memory.writeBytes (m : Memory) (a : Nat) (d : List Byte) : Memory :=
  Memory.tabulate fun x => if a ≤ x ∧ x < a + d.length then d.getD (x - a) 0 else m.read x

/-- MemRead on the state (R13). -/
def State.memRead (s : State) (a n : Nat) : List Byte := s.buf.readBytes a n

/-- MemWrite on the state (R13). -/
def State.memWrite (s : State) (a : Nat) (d : List Byte) : State :=
  { s with buf := s.buf.writeBytes a d }

/-- BUF_LEN <- n (R13, R19). -/
def State.setBufLen (s : State) (n : Nat) : State := { s with bufLen := BitVec.ofNat 7 n }

/-- BIT_LEN <- BIT_LEN + 8·n; exact where the sum is below 2^64, which UPDATE has checked (R92, R124). -/
def State.addBits (s : State) (n : Nat) : State :=
  { s with bitLen := s.bitLen + BitVec.ofNat 64 (8 * n) }

/-- PHASE <- p (R22). -/
def State.setPhase (s : State) (p : Phase) : State := { s with phase := p }

/-- H <- COMPRESS(H, B): it writes H and nothing else of the engine (R82, R83); the model counts the
call (R151). -/
def State.compressBlock (s : State) (B : List Byte) : State :=
  { s with h := compress s.h B, compressCalls := s.compressCalls + 1 }

/-- H <- COMPRESS(H, MemRead(0, 64)): the buffer is read, not written (R85). -/
def State.compressBuffer (s : State) : State := s.compressBlock (s.memRead 0 64)

/-- The state after Recv(n): the first n bytes are gone from the data-in channel (R13, R42, R50). -/
def State.recv (s : State) (n : Nat) : State := { s with dataIn := s.dataIn.drop n }

/-- Emit(d): the bytes d go on the digest-out channel in order (R13, R43). -/
def State.emit (s : State) (d : List Byte) : State := { s with digestOut := s.digestOut ++ d }

/-- Taking a fault: FAULT records it and nothing else changes (R118, R127). The first fault sets FAULT
and nothing clears it (R25). -/
def State.raise (s : State) (r : FaultRecord) : State :=
  { s with fault := if s.fault = .none then r else s.fault }

/-- Taking the abort: a fault that also sets HALTED (R13, R122, R127). -/
def State.abort (s : State) (r : FaultRecord) : State := { s.raise r with halted := true }

/-- The return from HALTED and from a recorded fault: power-on reset, the only one there is (R128). It
sets every element of the engine as R139 says, and a new run starts, which has shown nothing yet
(R145). The host keeps its coming moves, and the counter of free values goes on, so that a later draw
is a new one (assumption log 12). -/
def State.powerOnReset (s : State) : State :=
  { State.reset with host := s.host, draws := s.draws }

/-- The command `i` has been taken and waits for its data bytes (R102). -/
def State.awaitData (s : State) (i : Instr) : State := { s with pending := some i }

/-- The command in flight is taken up: nothing waits any more (R102). -/
def State.clearPending (s : State) : State := { s with pending := none }

/-- The host's coming moves become `moves`. -/
def State.setHost (s : State) (moves : List HostMove) : State := { s with host := moves }

/-- What stands before every command: a halted engine takes no command (R126, priority 0 of R125), and
a state with FAULT ≠ NONE takes no further step (R25). -/
def State.taken (s : State) (k : State → Host.Outcome State Fault Refusal) :
    Host.Outcome State Fault Refusal :=
  if s.halted then .fault .halted
  else if s.fault ≠ .none then .fault (.faulted s.fault)
  else k s

end Sys2Proof.Machine
end

