-- ==== Sys2Proof/Machine/Operands.lean ====
section
/-! DEFINITION. Operand forms (rule R60) and the register numbering (rule R27). INIT and FINAL have no
operand; UPDATE's are the count n, which the decoder takes from LEN, and the data string D; FINAL's
result is the digest. -/

namespace Sys2Proof.Machine

/-- D = Recv(n): the next n bytes of the data-in channel, in the order the host sent them (R42, R60). -/
def State.recvData (s : State) (n : Nat) : List Byte := s.dataIn.take n

/-- All n data bytes have arrived (R102). -/
def State.hasData (s : State) (n : Nat) : Bool := decide (n ≤ s.dataIn.length)

/-- be32bytes(H[0]) ‖ … ‖ be32bytes(H[7]): 32 bytes, big-endian, word 0 first (R46, R108). -/
def digestBytes (H : HashState) : List Byte := H.toList.flatMap be32bytes

/-- The width of the register with a number of R27's table. -/
def regWidth (id : Nat) : Option Nat :=
  if id < 8 then some 32
  else if id < 72 then some 8
  else if id = 72 then some 7
  else if id = 73 then some 64
  else if id = 74 then some 1
  else none

/-- The value of the register with a number of R27's table: H0..H7, BUF0..BUF63, BUF_LEN, BIT_LEN,
HALTED. The numbers are the model's; no command names a register (R28) and the host reads HALTED
only (R24, R27). -/
def State.regValue (s : State) (id : Nat) : Option Nat :=
  if id < 8 then some (s.h.toList.getD id 0).toNat
  else if id < 72 then some (s.buf.read (id - 8)).toNat
  else if id = 72 then some s.bufLen.toNat
  else if id = 73 then some s.bitLen.toNat
  else if id = 74 then some s.halted.toNat
  else none

end Sys2Proof.Machine
end

