-- ==== Sys2Proof/Machine/Flags.lean ====
section
/-! DEFINITION. The engine has no status flags or condition codes (rule R30). Here are its status
outputs (R26) and the conditions its commands test (R121, R122, R124). -/

namespace Sys2Proof.Machine

/-- The output READY: 1 when the engine is idle and HALTED = 0 (R26). It is 0 while an UPDATE waits for
its data (R102) and until the host has taken the last digest byte of a FINAL (R114, R131). -/
def State.ready (s : State) : Bool := !s.halted && s.pending.isNone && s.digestOut.isEmpty

/-- The status outputs the host can read at any time (R26). -/
inductive StatusOutput where
  | ready
  | halted
  deriving DecidableEq, Repr

/-- The value of a status output (R26). -/
def State.status (s : State) : StatusOutput → Bool
  | .ready => s.ready
  | .halted => s.halted

/-- PHASE ∈ {INITIALIZED, ACCUMULATING}: UPDATE and FINAL have a defined result (R23, R121). -/
def Phase.isOpen : Phase → Bool
  | .uninit => false
  | .initialized => true
  | .accumulating => true
  | .finalized => false

/-- BUF_LEN > 63: the corrupted buffer index (R122). -/
def State.indexCorrupt (s : State) : Bool := decide (63 < s.bufLen.toNat)

/-- BIT_LEN + 8·n ≥ 2^64: the total does not fit (R124). -/
def State.lengthOverflows (s : State) (n : Nat) : Bool := decide (2 ^ 64 ≤ s.bitLen.toNat + 8 * n)

end Sys2Proof.Machine
end

