-- ==== Sys2Proof/Machine/Final.lean ====
section
/-! DEFINITION. FINAL, pad, compress and emit the digest (44_final.md, rules R103 to R114). -/

namespace Sys2Proof.Machine

/-- Step 1 (R104): BUF[b] <- 0x80 and BUF_LEN <- b + 1. -/
def State.appendMarker (s : State) : State :=
  (s.memWrite s.bufLen.toNat [0x80]).setBufLen (s.bufLen.toNat + 1)

/-- Step 2 (R105): where BUF_LEN > 56 after the marker, zero-fill to the end, COMPRESS, BUF_LEN <- 0. -/
def State.extraBlock (s : State) : State :=
  if 56 < s.bufLen.toNat then
    ((s.memWrite s.bufLen.toNat (List.replicate (64 - s.bufLen.toNat) 0x00)).compressBuffer).setBufLen 0
  else s

/-- Step 3 (R106): BUF[BUF_LEN..55] <- 0x00; BUF_LEN is not written. -/
def State.zeroFill (s : State) : State :=
  s.memWrite s.bufLen.toNat (List.replicate (56 - s.bufLen.toNat) 0x00)

/-- Step 4 (R107): BUF[56..63] <- be64bytes(L). -/
def State.writeLength (L : BitVec 64) (s : State) : State := s.memWrite 56 (be64bytes L)

/-- Step 6 (R108): the 32 bytes of H go out, word 0 first, big-endian. -/
def State.emitDigest (s : State) : State := s.emit (digestBytes s.h)

/-- PHASE <- FINALIZED (R112) and BUF_LEN <- any value in 0..64 (R111): a free value, drawn anew each
time. That the draw is one function of the engine's own count of draws, so that two engines or two runs
with equal counts draw the same value, is the model's choice (assumption log 8). -/
def State.consume (s : State) : State :=
  { s with
    phase := .finalized
    bufLen := BitVec.ofNat 7 (Config.finalBufLen s.draws).val
    draws := s.draws + 1 }

/-- The effect of a FINAL whose checks pass (R103). L is BIT_LEN on entry, which FINAL does not write
(R107, R110). -/
def State.finalize (s : State) : State :=
  ((s.appendMarker.extraBlock.zeroFill.writeLength s.bitLen).compressBuffer).emitDigest.consume

/-- FINAL (R103). The checks come before any write and any byte emitted (R118). -/
def execFinal (s : State) : Host.Outcome State Fault Refusal :=
  s.taken fun s =>
    if !s.phase.isOpen then .next (s.raise (.contractViolation s.phase .final))
    else if s.indexCorrupt then .next (s.abort (.invariantAbort s.bufLen))
    else .next s.finalize

end Sys2Proof.Machine
end

