-- ==== Sys2Proof/Machine/Init.lean ====
section
/-! DEFINITION. INIT, start a message (42_init.md, rules R87 to R90). -/

namespace Sys2Proof.Machine

/-- What INIT writes: H, BUF_LEN, BIT_LEN and PHASE (R87). BUF keeps whatever it held (R88), and
HALTED and FAULT are not written (R141). -/
def State.startMessage (s : State) : State :=
  { s with h := iv, bufLen := 0, bitLen := 0, phase := .initialized }

/-- INIT (R87): legal in every phase (R89); a halted engine does not take it (R126). -/
def execInit (s : State) : Host.Outcome State Fault Refusal :=
  s.taken fun s => .next s.startMessage

end Sys2Proof.Machine
end

