-- ==== Sys2Proof/Machine/Update.lean ====
section
/-! DEFINITION. UPDATE, absorb n bytes (43_update.md, rules R91 to R102). -/

namespace Sys2Proof.Machine

/-- Step 3 (R95): COMPRESS on `k` successive 64-byte windows of the data, not through BUF. -/
def State.absorbWindows : Nat → List Byte → State → State
  | 0, _, s => s
  | k + 1, d, s => State.absorbWindows k (d.drop 64) (s.compressBlock (d.take 64))

/-- Step 4 (R96): the tail, at most 63 bytes, goes to BUF[0..r−1] and BUF_LEN becomes r. -/
def State.absorbTail (tail : List Byte) (s : State) : State :=
  (s.memWrite 0 tail).setBufLen tail.length

/-- Steps 3 and 4 on the data not yet consumed: whole windows while at least 64 bytes remain, then the
tail (R95, R96). -/
def State.absorbRest (d : List Byte) (s : State) : State :=
  (s.absorbWindows (d.length / 64) d).absorbTail (d.drop (64 * (d.length / 64)))

/-- Steps 2 to 4 (R93 to R96) on the data D, with b = BUF_LEN on entry. -/
def State.absorb (d : List Byte) (s : State) : State :=
  let b := s.bufLen.toNat
  let need := 64 - b
  if b = 0 then s.absorbRest d
  else if d.length < need then (s.memWrite b d).setBufLen (b + d.length)
  else (((s.memWrite b (d.take need)).compressBuffer).setBufLen 0).absorbRest (d.drop need)

/-- The effect of an UPDATE whose checks pass and whose n bytes are on the channel (R91): Recv, step 1
(R92), steps 2 to 4, and PHASE <- ACCUMULATING (R97). -/
def State.update (n : Nat) (s : State) : State :=
  (((s.recv n).addBits n).absorb (s.recvData n)).setPhase .accumulating

/-- UPDATE n (R91). Every check is made before Recv and before any write (R118), in the order of R125.
Where the data has not all arrived, the engine waits for it and nothing else changes (R102). -/
def execUpdate (n : Nat) (s : State) : Host.Outcome State Fault Refusal :=
  s.taken fun s =>
    if !s.phase.isOpen then .next (s.raise (.contractViolation s.phase (.update n)))
    else if s.indexCorrupt then .next (s.abort (.invariantAbort s.bufLen))
    else if s.lengthOverflows n then .next (s.raise (.lengthOverflow s.bitLen n))
    else if !s.hasData n then .next (s.awaitData (.update n))
    else .next (s.update n)

end Sys2Proof.Machine
end

