-- ==== Sys2Proof/Machine/Port.lean ====
section
/-! DEFINITION. The engine's ports: how the host's moves reach it (70_reset_and_hazards.md, rules R142
to R149; 20_memory.md, rules R42, R43). -/

namespace Sys2Proof.Machine

/-- A descriptor is consumed, once, as it arrives (R54): an illegal one raises IllegalCommand before
any state changes and takes no data byte (R61, R120); a legal one runs. -/
def runDescriptor (w : Descriptor) (s : State) : Host.Outcome State Fault Refusal :=
  match decode w with
  | .command i => exec i s
  | .illegal _ => s.taken fun s => .next (s.raise (.illegalCommand w))

/-- The host issues a descriptor: only while READY = 1 (R147); a host that does not keep to it has no
move (R148). -/
def commandMove (w : Descriptor) (s : State) : Host.Outcome State Fault Refusal :=
  if s.ready then runDescriptor w s else .refused .issuedWhileBusy

/-- All the data a command takes is on the data-in channel: only UPDATE takes any (R42). -/
def State.dataReady (s : State) : Instr → Bool
  | .init => true
  | .update n => s.hasData n
  | .final => true

/-- The host owes the engine a data byte: a command is in flight whose data has not all arrived. "After an
UPDATE descriptor with LEN = n, the host owes the engine exactly n bytes" (R102). -/
def State.owesData (s : State) : Bool :=
  match s.pending with
  | none => false
  | some i => !s.dataReady i

/-- The host sends a byte: it goes to the end of the data-in channel (R42). -/
def dataMove (b : Byte) (s : State) : State := { s with dataIn := s.dataIn ++ [b] }

/-- A byte the host sends is taken only while it owes one (R102, R148); a surplus or an early byte is a
length mismatch, for which the model has no move (R123, U7). -/
def sendMove (b : Byte) (s : State) : Host.Outcome State Fault Refusal :=
  if s.owesData then .next (dataMove b s) else .refused .dataNotOwed

/-- The host takes the oldest byte from the digest-out channel (R43, R114). Where the channel is empty
it gets nothing and nothing changes (assumption log 11). -/
def takeMove (s : State) : State :=
  match s.digestOut with
  | [] => s
  | b :: rest => { s with digestOut := rest, received := s.received ++ [b] }

/-- The host's move `m`. A power-on reset is taken at any time (R148); a halted engine and a faulted
state take no other step (R25, R126). -/
def hostMove (m : HostMove) (s : State) : Host.Outcome State Fault Refusal :=
  match m with
  | .powerOnReset => .next s.powerOnReset
  | .command w => s.taken (commandMove w)
  | .data b => s.taken (sendMove b)
  | .take => s.taken fun s => .next (takeMove s)

/-- The host has no move left. An idle engine stays as it is (assumption log 7); an UPDATE that waits
for bytes nobody sends, and a digest nobody takes, have no move in the model (R102, R114, R148). -/
def restMove (s : State) : Host.Outcome State Fault Refusal :=
  s.taken fun s =>
    if s.pending.isSome then .refused .dataNotSent
    else if !s.digestOut.isEmpty then .refused .digestNotTaken
    else .next s

/-- The host's next move, if it has one. -/
def hostStep (s : State) : Host.Outcome State Fault Refusal :=
  match s.host with
  | [] => restMove s
  | m :: rest => hostMove m (s.setHost rest)

/-- The host's next move is a power-on reset, which it may do at any time (R148). -/
def State.resetNext (s : State) : Bool := s.host.head? == some .powerOnReset

/-- One step of the engine and its host. A command in flight takes effect, as one transition (R48), as
soon as its data has arrived (R102; assumption log 2), unless the host resets the engine first
(assumption log 12); otherwise the host makes its next move. -/
def engineStep (s : State) : Host.Outcome State Fault Refusal :=
  match s.pending with
  | none => hostStep s
  | some i => if s.dataReady i && !s.resetNext then exec i s.clearPending else hostStep s

/-- The state in which the host is about to issue the descriptor `w` to an engine that can take it:
the descriptor stands first among the host's moves, no command is in flight, and no digest byte is
left to be taken (R147). -/
def State.withDescriptor (s : State) (w : Descriptor) : State :=
  { s with host := .command w :: s.host, pending := none, digestOut := [] }

end Sys2Proof.Machine
end

