-- ==== Sys2Proof/Machine/Step.lean ====
section
/-! DEFINITION. One step of the machine, and how a command is put before it. -/

namespace Sys2Proof.Machine

/-- One step of the engine and its host. -/
def step (s : State) : Host.Outcome State Fault Refusal := engineStep s

/-- `s` with the descriptor whose low `nbits` bits are `w`, its other bits 0, as the host's next move,
so that the next step runs exactly it. The engine runs no stored program (R29): the host's command
stream is the only sequence (assumption log 1). -/
def State.withFetchWord (s : State) (nbits w : Nat) : State :=
  s.withDescriptor (BitVec.ofNat 64 (w % 2 ^ nbits))

end Sys2Proof.Machine
end

