-- ==== Sys2Proof/Machine/Assembler.lean ====
section
/-! DEFINITION. The assembler: the command text, data literals and the pseudo-command HASH
(30_encoding.md, rules R65 to R67). It is the host's tool; no step of the engine reads it. Points of
the text the rules do not settle: assumption log 13. -/

namespace Sys2Proof.Machine

/-- An atom of a data literal (R66). -/
inductive Atom where
  /-- `"text"`: the bytes of the text, its escapes already read. -/
  | text (bytes : List Byte)
  /-- `x"HHHH…"`: two hexadecimal digits per byte. -/
  | hex (bytes : List Byte)
  /-- `rep(<count>, <byte>)`: count copies of one byte. -/
  | rep (count : Nat) (byte : Byte)
  deriving DecidableEq, Repr

/-- The bytes an atom stands for (R66). -/
def Atom.bytes : Atom → List Byte
  | .text d => d
  | .hex d => d
  | .rep count byte => List.replicate count byte

/-- One line of command text (R65), or the pseudo-command (R67). -/
inductive AsmLine where
  /-- A line with no command: blank, or a comment only. -/
  | blank
  | init
  | update (data : List Atom)
  | final
  | hash (data : List Atom)
  deriving DecidableEq, Repr

/-- What one command assembles to: its descriptor and the bytes that follow on the data-in channel
(R65). -/
structure Assembled where
  descriptor : Descriptor
  data : List Byte
  deriving DecidableEq, Repr

/-- The bytes of a data literal: its atoms' bytes concatenated in order (R66). -/
def literalBytes (atoms : List Atom) : List Byte := atoms.flatMap Atom.bytes

/-- The most bytes one UPDATE carries (R8). -/
def maxUpdateBytes : Nat := 2 ^ 32 - 1

/-- An UPDATE with its data: LEN = |data|; more than 2^32 − 1 bytes is an assembly error (R65). -/
def assembleUpdate (data : List Byte) : Option Assembled :=
  if data.length ≤ maxUpdateBytes then some ⟨encode (.update data.length), data⟩ else none

/-- `k` pieces of 2^32 − 1 bytes each and then the rest (R67). -/
def hashPieces : Nat → List Byte → List (List Byte)
  | 0, d => [d]
  | k + 1, d => d.take maxUpdateBytes :: hashPieces k (d.drop maxUpdateBytes)

/-- The expansion of `HASH <data>`: INIT, then the fewest UPDATEs that carry the data in order with
every UPDATE but the last carrying exactly 2^32 − 1 bytes (one UPDATE for the empty string), then
FINAL (R67). -/
def assembleHash (data : List Byte) : List Assembled :=
  [⟨encode .init, []⟩] ++
    (hashPieces ((data.length - 1) / maxUpdateBytes) data).map
      (fun d => ⟨encode (.update d.length), d⟩) ++
    [⟨encode .final, []⟩]

/-- One line assembled; none is an assembly error (R65, R67). -/
def assembleLine : AsmLine → Option (List Assembled)
  | .blank => some []
  | .init => some [⟨encode .init, []⟩]
  | .update atoms => (assembleUpdate (literalBytes atoms)).map fun c => [c]
  | .final => some [⟨encode .final, []⟩]
  | .hash atoms => some (assembleHash (literalBytes atoms))

/-- A program assembled, its lines in order; none where a line is an assembly error. -/
def assemble : List AsmLine → Option (List Assembled)
  | [] => some []
  | l :: rest =>
    match assembleLine l, assemble rest with
    | some a, some b => some (a ++ b)
    | _, _ => none

/-- How a host that meets its duties issues one assembled command (R148): the descriptor, its data
bytes, and for a FINAL the taking of the 32 digest bytes. -/
def Assembled.moves (c : Assembled) : List HostMove :=
  .command c.descriptor :: c.data.map .data ++
    (if decode c.descriptor = .command .final then List.replicate 32 .take else [])

/-- The host's moves for an assembled program. -/
def hostProgram (cs : List Assembled) : List HostMove := cs.flatMap Assembled.moves

/-! The command text itself, as a list of characters. -/

/-- The value of a hexadecimal digit. -/
def hexDigit (c : Char) : Option Nat :=
  if '0' ≤ c ∧ c ≤ '9' then some (c.toNat - 48)
  else if 'a' ≤ c ∧ c ≤ 'f' then some (c.toNat - 87)
  else if 'A' ≤ c ∧ c ≤ 'F' then some (c.toNat - 55)
  else none

/-- The byte of two hexadecimal digits, high nibble first (R66). -/
def hexByte (hi lo : Char) : Option Byte :=
  match hexDigit hi, hexDigit lo with
  | some x, some y => some (BitVec.ofNat 8 (16 * x + y))
  | _, _ => none

/-- The byte of an ASCII character (R15). -/
def asciiByte (c : Char) : Option Byte :=
  if c.toNat < 128 then some (BitVec.ofNat 8 c.toNat) else none

/-- The text after an opening quote: its bytes, with the three escapes of R66, and what follows the
closing quote. -/
def readText : List Char → Option (List Byte × List Char)
  | [] => none
  | '"' :: rest => some ([], rest)
  | '\\' :: '"' :: rest => (readText rest).map fun (d, r) => (0x22 :: d, r)
  | '\\' :: '\\' :: rest => (readText rest).map fun (d, r) => (0x5c :: d, r)
  | '\\' :: 'x' :: hi :: lo :: rest =>
    match hexByte hi lo with
    | some b => (readText rest).map fun (d, r) => (b :: d, r)
    | none => none
  | c :: rest =>
    if c = '\\' then none
    else match asciiByte c with
      | some b => (readText rest).map fun (d, r) => (b :: d, r)
      | none => none

/-- The digits after `x` and its opening quote: an even number, two per byte (R66). -/
def readHex : List Char → Option (List Byte × List Char)
  | '"' :: rest => some ([], rest)
  | hi :: lo :: rest =>
    match hexByte hi lo with
    | some b => (readHex rest).map fun (d, r) => (b :: d, r)
    | none => none
  | _ => none

/-- Blanks left out at the front. -/
def skipBlanks : List Char → List Char
  | ' ' :: rest => skipBlanks rest
  | '\t' :: rest => skipBlanks rest
  | l => l

/-- A run of decimal digits, read onto `acc` (R9: a number without prefix is decimal). -/
def readDigits (acc : Nat) : List Char → Nat × List Char
  | [] => (acc, [])
  | c :: rest =>
    if '0' ≤ c ∧ c ≤ '9' then readDigits (10 * acc + (c.toNat - 48)) rest else (acc, c :: rest)

/-- A run of hexadecimal digits, read onto `acc`. -/
def readHexDigits (acc : Nat) : List Char → Nat × List Char
  | [] => (acc, [])
  | c :: rest =>
    match hexDigit c with
    | some x => readHexDigits (16 * acc + x) rest
    | none => (acc, c :: rest)

/-- A count: `0x` prefixes a hexadecimal number (R9). -/
def readCount : List Char → Option (Nat × List Char)
  | '0' :: 'x' :: c :: rest => if (hexDigit c).isSome then some (readHexDigits 0 (c :: rest)) else none
  | c :: rest => if '0' ≤ c ∧ c ≤ '9' then some (readDigits 0 (c :: rest)) else none
  | [] => none

/-- A byte of `rep`: `0xHH` or a one-character `'c'` (R66), where c is any ASCII character, a quote or a
backslash too, and no escape is read (assumption log 13). -/
def readByte : List Char → Option (Byte × List Char)
  | '0' :: 'x' :: hi :: lo :: rest => (hexByte hi lo).map fun b => (b, rest)
  | '\'' :: c :: '\'' :: rest => (asciiByte c).map fun b => (b, rest)
  | _ => none

/-- The inside of `rep( … )`: count, comma, byte, closing parenthesis (R66). That blanks may stand just
inside the parentheses is the model's choice (assumption log 13). -/
def readRep (l : List Char) : Option (Atom × List Char) :=
  match readCount (skipBlanks l) with
  | none => none
  | some (count, l) =>
    match skipBlanks l with
    | ',' :: l =>
      match readByte (skipBlanks l) with
      | none => none
      | some (b, l) =>
        match skipBlanks l with
        | ')' :: l => some (.rep count b, l)
        | _ => none
    | _ => none

/-- One atom (R66). -/
def readAtom : List Char → Option (Atom × List Char)
  | '"' :: l => (readText l).map fun (d, r) => (.text d, r)
  | 'x' :: '"' :: l => (readHex l).map fun (d, r) => (.hex d, r)
  | 'r' :: 'e' :: 'p' :: '(' :: l => readRep l
  | _ => none

/-- One or more atoms joined by commas (R66), and what follows them. `fuel` bounds their number; the
length of the text is enough. -/
def readAtoms : Nat → List Char → Option (List Atom × List Char)
  | 0, _ => none
  | fuel + 1, l =>
    match readAtom (skipBlanks l) with
    | none => none
    | some (a, l) =>
      match skipBlanks l with
      | ',' :: l => (readAtoms fuel l).map fun (as, r) => (a :: as, r)
      | l => some ([a], l)

/-- Nothing is left on the line but blanks and a comment (R65). -/
def lineEnds (l : List Char) : Bool :=
  match skipBlanks l with
  | [] => true
  | ';' :: _ => true
  | _ => false

/-- A blank stands between a mnemonic and its data (R65). -/
def startsBlank : List Char → Bool
  | [] => false
  | c :: _ => c = ' ' || c = '\t'

/-- The data of an UPDATE or a HASH, to the end of the line. -/
def readData (l : List Char) : Option (List Atom) :=
  match readAtoms (l.length + 1) l with
  | some (atoms, r) => if lineEnds r then some atoms else none
  | none => none

/-- One line of command text (R65): mnemonics in upper case, `;` starts a comment. None where the line
is none of the rules' forms. -/
def parseLine (line : List Char) : Option AsmLine :=
  match skipBlanks line with
  | 'I' :: 'N' :: 'I' :: 'T' :: l => if lineEnds l then some .init else none
  | 'F' :: 'I' :: 'N' :: 'A' :: 'L' :: l => if lineEnds l then some .final else none
  | 'U' :: 'P' :: 'D' :: 'A' :: 'T' :: 'E' :: l =>
    if startsBlank l then (readData l).map .update else none
  | 'H' :: 'A' :: 'S' :: 'H' :: l => if startsBlank l then (readData l).map .hash else none
  | l => if lineEnds l then some .blank else none

/-- The lines of a text, one command per line (R65). -/
def splitLines : List Char → List (List Char)
  | [] => [[]]
  | '\n' :: rest => [] :: splitLines rest
  | c :: rest =>
    match splitLines rest with
    | l :: ls => (c :: l) :: ls
    | [] => [[c]]

/-- Every line of a list parsed; none where one of them is no line of R65. -/
def parseLines : List (List Char) → Option (List AsmLine)
  | [] => some []
  | l :: rest =>
    match parseLine l, parseLines rest with
    | some a, some b => some (a :: b)
    | _, _ => none

/-- A whole program text assembled (R65 to R67). -/
def assembleText (text : List Char) : Option (List Assembled) :=
  (parseLines (splitLines text)).bind assemble

end Sys2Proof.Machine
end

