-- ==== Sys2Proof/Machine/Platform.lean ====
section
/-! DEFINITION. A platform of several engines (rules R6, R55, R136, R137). `n` is the open parameter
N_ENGINES; the open parameter PLATFORM_BINDING is the argument `binding` of `Platform.access` and `Platform.shown`. Each
engine has its own state, ports and host moves; they share only the tables IV and K. -/

namespace Sys2Proof.Machine

/-- A platform with `n` engines. -/
structure Platform (n : Nat) where
  engines : Vector State n
  deriving DecidableEq, Repr

/-- Every engine after power-on reset (R139). -/
def Platform.reset (n : Nat) : Platform n := ⟨Vector.replicate n State.reset⟩

/-- Engine `i` takes a step; the others stay as they are (R55, R136). Which engine steps next is not
fixed (R52), so it is an argument (assumption log 14). -/
def Platform.step {n : Nat} (p : Platform n) (i : Fin n) : Host.Outcome (Platform n) Fault Refusal :=
  match Sys2Proof.Machine.step p.engines[i] with
  | .next t => .next ⟨p.engines.set i t⟩
  | .fault f => .fault f
  | .refused r => .refused r

/-- PLATFORM_BINDING: how the host's accesses reach the engines' ports on a given platform (R6, R51).
`Access` is whatever the platform's accesses are (a bus transfer, a register access, a beat of a
stream), and `Mem` is whatever the binding itself remembers between them (half a descriptor, say).
What an access makes the host do and show depends on the access and that memory alone: the form is the
model's choice (assumption log 16). -/
structure Binding (Access Mem : Type) (n : Nat) where
  /-- The moves at the engines' command ports and channels that an access makes, in order; none, one or
  several. -/
  moves : Access → Mem → List (Fin n × HostMove)
  /-- The status outputs that an access reads, in order (R26). -/
  reads : Access → Mem → List (Fin n × StatusOutput)
  /-- What the binding remembers after the access. -/
  remember : Access → Mem → Mem

/-- The move `m` is added at the end of what the host is going to do at engine `i`; no other engine sees
it (R55). -/
def Platform.issue {n : Nat} (p : Platform n) (i : Fin n) (m : HostMove) : Platform n :=
  ⟨p.engines.set i (p.engines[i].setHost (p.engines[i].host ++ [m]))⟩

/-- The value of a status output of one engine; reading it changes nothing (R26, R148). -/
def Platform.status {n : Nat} (p : Platform n) (i : Fin n) (o : StatusOutput) : Bool :=
  p.engines[i].status o

/-- What an access does to the platform: its moves are issued in order. -/
def Platform.access {Access Mem : Type} {n : Nat} (binding : Binding Access Mem n) (a : Access) (mem : Mem)
    (p : Platform n) : Platform n :=
  (binding.moves a mem).foldl (fun q im => q.issue im.1 im.2) p

/-- What an access shows the host of the status outputs. -/
def Platform.shown {Access Mem : Type} {n : Nat} (binding : Binding Access Mem n) (a : Access) (mem : Mem)
    (p : Platform n) : List Bool :=
  (binding.reads a mem).map fun io => p.status io.1 io.2

end Sys2Proof.Machine
end

