-- ==== Sys2Proof/Machine/Message.lean ====
section
/-! DEFINITION. What the engine computes, said of whole messages: the blocks of a byte string, the
padded message and its digest (rule R113), the message a state holds (rules R35, R100), and command
sequences (rule R101). No step of the machine reads these. -/

namespace Sys2Proof.Machine

/-- The first `k` consecutive 64-byte pieces of a byte string, in order. -/
def blocksOf : Nat → List Byte → List (List Byte)
  | 0, _ => []
  | k + 1, d => d.take 64 :: blocksOf k (d.drop 64)

/-- COMPRESS applied from `H` to the first ⌊|d|/64⌋ blocks of `d`, in order (R35, R113). -/
def hashBlocks (H : HashState) (d : List Byte) : HashState :=
  (blocksOf (d.length / 64) d).foldl compress H

/-- k = (55 − |M|) mod 64, the number of zero bytes in the padding (R113). -/
def padZeros (len : Nat) : Nat := ((55 - (len : Int)) % 64).toNat

/-- What is appended to a message of `len` bytes with bit count L: 0x80 ‖ (k bytes 0x00) ‖ be64bytes(L)
(R113). -/
def padding (len : Nat) (L : BitVec 64) : List Byte :=
  [0x80] ++ List.replicate (padZeros len) 0x00 ++ be64bytes L

/-- The padded message P = M ‖ 0x80 ‖ (k bytes 0x00) ‖ be64bytes(8·|M|) (R113). -/
def padded (M : List Byte) : List Byte :=
  M ++ padding M.length (BitVec.ofNat 64 (8 * M.length))

/-- SHA256(M) (R113). -/
def sha256 (M : List Byte) : List Byte := digestBytes (hashBlocks iv (padded M))

/-- The state holds the message `M`, all bytes absorbed since the last INIT (R100): the invariant set
of R35, (a) for BUF_LEN and BUF, (b) for BIT_LEN, and H. -/
structure State.Holds (s : State) (M : List Byte) : Prop where
  bufLen_eq : s.bufLen.toNat = M.length % 64
  tail_eq : s.memRead 0 (M.length % 64) = M.drop (64 * (M.length / 64))
  bitLen_eq : s.bitLen.toNat = 8 * M.length
  h_eq : s.h = hashBlocks iv M

/-- The commands of a list, one after the other, stopping at the first that does not answer a next
state (R52). -/
def execAll : List Instr → State → Host.Outcome State Fault Refusal
  | [], s => .next s
  | i :: rest, s =>
    match exec i s with
    | .next t => execAll rest t
    | .fault f => .fault f
    | .refused r => .refused r

/-- The UPDATEs with the given counts, in order: a split of a message (R101). -/
def updates (counts : List Nat) : List Instr := counts.map .update

end Sys2Proof.Machine
end

