-- ==== Sys2Proof/Safety.lean ====
section
/-! DEFINITION. What counts as a good state and a good run, in the terms claims use. -/

namespace Sys2Proof.Machine

/-- The engine can take a step: it is not halted and records no fault (R25, R126). -/
abbrev State.running (s : State) : Prop := s.halted = false ∧ s.fault = .none

/-- The run has ended well: the host has no move left, its last command has completed, HALTED = 0 and
FAULT = NONE (R145). -/
abbrev State.endsWell (s : State) : Prop := s.host = [] ∧ s.ready = true ∧ s.fault = .none

/-- The 32-byte digests a byte string of digests consists of, in order (R145). -/
def digestsIn (d : List Byte) : List (List Byte) :=
  (List.range (d.length / 32)).map fun i => (d.drop (32 * i)).take 32

/-- What a run shows: the 32-byte digests the host has taken since power-on reset, in order; a run that
has not ended well shows nothing (R145). -/
def State.shows (s : State) : Option (List (List Byte)) :=
  if s.endsWell then some (digestsIn s.received) else none

/-- The bounds that hold at every command boundary of a run: BUF_LEN is in 0..63 while PHASE is UNINIT,
INITIALIZED or ACCUMULATING and in 0..64 in FINALIZED (R19, C7); the abort has not happened, since no
run from reset reaches it (R122); the buffer is in canonical form with addresses 0..63 (R40); a command
in flight is an UPDATE whose checks have passed, and no more bytes are on the data-in channel than the
host owes it (R102, R148); and at most one digest is on its way to the host, which makes up whole
digests with what the host has taken (R43, R145, R147). -/
structure State.WellKept (s : State) : Prop where
  buf_wf : s.buf.wf
  bufLen_open : s.phase ≠ .finalized → s.bufLen.toNat ≤ 63
  bufLen_all : s.bufLen.toNat ≤ 64
  not_halted : s.halted = false
  no_abort : s.fault.code ≠ 3
  pending_update : ∀ i, s.pending = some i → ∃ n, i = .update n ∧ n ≤ 2 ^ 32 - 1 ∧
    s.dataIn.length ≤ n ∧ s.bitLen.toNat + 8 * n < 2 ^ 64
  data_owed : s.pending = none → s.dataIn = []
  pending_open : s.pending ≠ none → s.phase.isOpen = true ∧ s.digestOut = []
  digest_le : s.digestOut.length ≤ 32
  digests_whole : (s.received.length + s.digestOut.length) % 32 = 0

/-- Two states that differ in stale buffer bytes alone: at every address from BUF_LEN on, BUF may hold
anything (R36). -/
structure State.AgreeLive (s s' : State) : Prop where
  same_besides_buf : s' = { s with buf := s'.buf }
  live_eq : ∀ a < 64, a < s.bufLen.toNat → s'.buf.read a = s.buf.read a

/-- In every phase in which UPDATE and FINAL are defined, the state holds some message (R35, R100). -/
abbrev State.HoldsSome (s : State) : Prop := s.phase.isOpen = true → ∃ M, s.Holds M

end Sys2Proof.Machine
end

