-- ==== Sys2Proof/Certificates/Slice0/Obligations.lean ====
section
/-! DEFINITION. The statements for the provers. Each docstring says which rule it formalises. -/

open Sys2Proof Sys2Proof.Machine

/-! Encoding (30_encoding.md) -/

/-- Decoding the encoding of a well-formed command gives it back, for every command and every count
(R56 to R59, R64). -/
def Obligations.DecodeEncodeRoundTrip : Prop :=
  ∀ i : Instr, i.wf = true → decode (encode i) = .command i

/-- A descriptor that decodes to a command is that command's encoding, and the command is well-formed:
no command has a second descriptor (R62, R64). -/
def Obligations.EncodeDecodeRoundTrip : Prop :=
  ∀ (w : Descriptor) (i : Instr), decode w = .command i → i.wf = true ∧ encode i = w

/-- R64: INIT is exactly 1, FINAL is exactly 3, UPDATE is every value with w[31:0] = 2, its count LEN
zero-extended, and every other value is Illegal. -/
def Obligations.DecoderReadsExactDescriptors : Prop :=
  ∀ w : Descriptor,
    (decode w = .command .init ↔ w = 0x0000000000000001) ∧
    (decode w = .command .final ↔ w = 0x0000000000000003) ∧
    (∀ n, decode w = .command (.update n) ↔ w.toNat % 2 ^ 32 = 2 ∧ n = w.toNat / 2 ^ 32) ∧
    (w ≠ 0x0000000000000001 → w ≠ 0x0000000000000003 → w.toNat % 2 ^ 32 ≠ 2 →
      ∃ why, decode w = .illegal why)

/-- R61 and R120: which descriptors are illegal, and that an illegal one raises IllegalCommand(w)
before any state changes and takes no data byte. -/
def Obligations.IllegalDescriptorIsRecorded : Prop :=
  ∀ w : Descriptor,
    ((decode w).toInstr = none ↔
      rsvdField w ≠ 0 ∨ opField w = 0 ∨ 4 ≤ (opField w).toNat ∨
        (opField w = 1 ∧ lenField w ≠ 0) ∨ (opField w = 3 ∧ lenField w ≠ 0)) ∧
    ∀ (s : State) (rest : List HostMove), s.running → s.ready = true → s.host = .command w :: rest →
      (decode w).toInstr = none →
      step s = .next { s with host := rest, fault := .illegalCommand w }

/-- Descriptors written out from R56 and R57 decode as 30_encoding.md §5 and the decoder vectors V-D1 to
V-D14 say. -/
def Obligations.SampleDescriptorsDecode : Prop :=
  decode 0x0000000000000000 = .illegal .reservedOp ∧
  decode 0x0000000000000001 = .command .init ∧
  decode 0x0000000000000002 = .command (.update 0) ∧
  decode 0x0000000300000002 = .command (.update 3) ∧
  decode 0xFFFFFFFF00000002 = .command (.update 4294967295) ∧
  decode 0x0000000000000003 = .command .final ∧
  decode 0x0000000100000001 = .illegal .lengthNotZero ∧
  decode 0x0000000100000003 = .illegal .lengthNotZero ∧
  decode 0x0000000000000004 = .illegal .reservedOp ∧
  decode 0x000000000000000F = .illegal .reservedOp ∧
  decode 0x0000000000000012 = .illegal .reservedBits ∧
  decode 0x0000000080000002 = .illegal .reservedBits ∧
  decode 0x0000000000000011 = .illegal .reservedBits ∧
  decode 0xFFFFFFFFFFFFFFFF = .illegal .reservedBits

/-! Steps and ports (20_memory.md, 70_reset_and_hazards.md) -/

/-- A step runs the decoded command: where the engine is ready and the host's next move is a descriptor
that decodes to `i`, the step is exec of `i` after that move; a command in flight whose data has
arrived is run likewise, unless the host resets the engine; and `withFetchWord` puts a command in that
place. There is no program counter to move (R29). -/
def Obligations.StepRunsDecodedCommand : Prop :=
  (∀ (s : State) (w : Descriptor) (rest : List HostMove) (i : Instr),
    s.ready = true → s.host = .command w :: rest → decode w = .command i →
    step s = exec i { s with host := rest }) ∧
  (∀ (s : State) (i : Instr),
    s.pending = some i → s.dataReady i = true → s.resetNext = false →
    step s = exec i { s with pending := none }) ∧
  (∀ (s : State) (w : Nat) (i : Instr), decodeTableWord 64 w = some i →
    step (s.withFetchWord 64 w) = exec i { s with pending := none, digestOut := [] })

/-- The host's duties (R102, R114, R147, R148): a host that stops sending, that sends a
byte it does not owe, that does not take the digest, or that issues a descriptor while READY = 0 has no
move, by name; an idle engine whose host has
no move left stays as it is. That idle engines stay as they are is the model's choice (assumption
log 7), and so are the refusals' names (assumption log 4). -/
def Obligations.HostDutiesAreNamed : Prop :=
  (∀ (s : State) (n : Nat), s.running → s.pending = some (.update n) → s.dataIn.length < n →
    s.host = [] → step s = .refused .dataNotSent) ∧
  (∀ s : State, s.running → s.pending = none → s.digestOut ≠ [] → s.host = [] →
    step s = .refused .digestNotTaken) ∧
  (∀ (s : State) (w : Descriptor) (rest : List HostMove), s.running → s.ready = false →
    s.host = .command w :: rest → (∀ i, s.pending = some i → s.dataReady i = false) →
    step s = .refused .issuedWhileBusy) ∧
  (∀ (s : State) (b : Byte) (rest : List HostMove), s.running → s.host = .data b :: rest →
    s.pending = none → step s = .refused .dataNotOwed) ∧
  (∀ s : State, s.running → s.ready = true → s.host = [] → step s = .next s)

/-- A data byte the host owes goes to the end of the data-in channel, and nothing else changes (R42,
R102). -/
def Obligations.DataByteArrives : Prop :=
  ∀ (s : State) (b : Byte) (rest : List HostMove) (n : Nat), s.running → s.host = .data b :: rest →
    s.pending = some (.update n) → s.dataIn.length < n →
    step s = .next { s with host := rest, dataIn := s.dataIn ++ [b] }

/-- An UPDATE in flight takes effect as one transition when its last data byte has arrived, however long
that takes (R48, R102). -/
def Obligations.WaitingUpdateCompletes : Prop :=
  ∀ (s : State) (n : Nat) (ds : List Byte) (rest : List HostMove),
    s.running → s.phase.isOpen = true → s.bufLen.toNat ≤ 63 → s.bitLen.toNat + 8 * n < 2 ^ 64 →
    s.pending = some (.update n) → s.dataIn.length + ds.length = n →
    s.host = ds.map HostMove.data ++ rest → rest.head? ≠ some .powerOnReset →
    Sys2Proof.core.run (ds.length + 1) s =
      .next (State.update n { s with pending := none, host := rest, dataIn := s.dataIn ++ ds })

/-- The host takes the bytes of the digest-out channel in the order they were emitted (R43, R114). -/
def Obligations.DigestIsTakenInOrder : Prop :=
  ∀ (s : State) (rest : List HostMove), s.running → s.pending = none →
    s.host = List.replicate s.digestOut.length .take ++ rest →
    Sys2Proof.core.run s.digestOut.length s =
      .next { s with digestOut := [], received := s.received ++ s.digestOut, host := rest }

/-! INIT (42_init.md) -/

/-- R141, with the values of R31 and R87: what INIT writes and that it writes nothing else; a halted
engine does not take it. That 'not taken' is the stop Fault.halted is the model's choice (assumption
log 6). -/
def Obligations.InitStartsMessage : Prop :=
  (∀ s : State, s.running →
    exec .init s = .next { s with
      h := #v[0x6a09e667, 0xbb67ae85, 0x3c6ef372, 0xa54ff53a, 0x510e527f, 0x9b05688c, 0x1f83d9ab,
        0x5be0cd19]
      bufLen := 0
      bitLen := 0
      phase := .initialized }) ∧
  (∀ s : State, s.halted = true → exec .init s = .fault .halted)

/-- R89: INIT is legal in every phase, INIT twice is INIT once, its result does not depend on H, BUF_LEN,
BIT_LEN or PHASE, and in UNINIT and FINALIZED UPDATE and FINAL record a fault instead. -/
def Obligations.InitIsIdempotent : Prop :=
  (∀ s : State, s.running → ∃ t, exec .init s = .next t ∧ exec .init t = .next t ∧ t.fault = .none ∧
    t.buf = s.buf) ∧
  (∀ (s s' t t' : State), exec .init s = .next t → exec .init s' = .next t' →
    t.h = t'.h ∧ t.bufLen = t'.bufLen ∧ t.bitLen = t'.bitLen ∧ t.phase = t'.phase) ∧
  (∀ s : State, s.running → s.phase = .uninit ∨ s.phase = .finalized →
    (∀ n, ∃ t, exec (.update n) s = .next t ∧ t.fault ≠ .none) ∧
      ∃ t, exec .final s = .next t ∧ t.fault ≠ .none)

/-! UPDATE (43_update.md) -/

/-- R99, with R92's count and R97's phase: what an UPDATE whose checks pass and whose data has arrived
leaves. -/
def Obligations.UpdateAbsorbsBlocks : Prop :=
  ∀ (s : State) (n : Nat),
    s.running → s.phase.isOpen = true → s.bufLen.toNat ≤ 63 → s.bitLen.toNat + 8 * n < 2 ^ 64 →
    n ≤ s.dataIn.length →
    ∃ t, exec (.update n) s = .next t ∧
      t.compressCalls = s.compressCalls + (s.bufLen.toNat + n) / 64 ∧
      t.bufLen.toNat = (s.bufLen.toNat + n) % 64 ∧
      t.h = (blocksOf ((s.bufLen.toNat + n) / 64)
        (s.memRead 0 s.bufLen.toNat ++ s.dataIn.take n)).foldl compress s.h ∧
      t.memRead 0 ((s.bufLen.toNat + n) % 64) =
        (s.memRead 0 s.bufLen.toNat ++ s.dataIn.take n).drop (64 * ((s.bufLen.toNat + n) / 64)) ∧
      t.bitLen.toNat = s.bitLen.toNat + 8 * n ∧
      t.dataIn = s.dataIn.drop n ∧
      t.phase = .accumulating

/-- UPDATE's frame: HALTED, FAULT, the command in flight, the digest-out channel, the host's moves, what
the host has received and the draws are unchanged whenever UPDATE takes effect, and so is every byte of
the buffer it does not store to: with b = BUF_LEN on entry it stores to BUF[b..b+n−1] when b + n < 64
(R93, R96), and otherwise to BUF[b..63] when b > 0 (R94) and to BUF[0..r−1] with r = (b + n) mod 64
(R96). -/
def Obligations.UpdateFrame : Prop :=
  ∀ (s t : State) (n : Nat),
    exec (.update n) s = .next t → t.fault = .none → n ≤ s.dataIn.length →
    t.halted = s.halted ∧ t.fault = s.fault ∧ t.pending = s.pending ∧ t.digestOut = s.digestOut ∧
    t.host = s.host ∧
    t.received = s.received ∧ t.draws = s.draws ∧
    ∀ a < 64,
      (if s.bufLen.toNat + n < 64 then a < s.bufLen.toNat ∨ s.bufLen.toNat + n ≤ a
        else (s.bufLen.toNat + n) % 64 ≤ a ∧ (a < s.bufLen.toNat ∨ s.bufLen.toNat = 0)) →
      t.buf.read a = s.buf.read a

/-- R92: BIT_LEN grows by 8·n exactly, for every n, and a sum of 2^64 or more is LengthOverflow. -/
def Obligations.BitCountIsExact : Prop :=
  ∀ (s : State) (n : Nat), s.running → s.phase.isOpen = true → s.bufLen.toNat ≤ 63 →
    (s.bitLen.toNat + 8 * n < 2 ^ 64 → n ≤ s.dataIn.length →
      ∃ t, exec (.update n) s = .next t ∧ t.bitLen.toNat = s.bitLen.toNat + 8 * n) ∧
    (2 ^ 64 ≤ s.bitLen.toNat + 8 * n →
      exec (.update n) s = .next { s with fault := .lengthOverflow s.bitLen n })

/-- R93: a partial block that stays partial. -/
def Obligations.PartialBlockStaysPartial : Prop :=
  ∀ (s : State) (n : Nat),
    s.running → s.phase.isOpen = true → s.bitLen.toNat + 8 * n < 2 ^ 64 → n ≤ s.dataIn.length →
    0 < s.bufLen.toNat → s.bufLen.toNat + n < 64 →
    ∃ t, exec (.update n) s = .next t ∧
      t.bufLen.toNat = s.bufLen.toNat + n ∧ t.bufLen.toNat ≤ 63 ∧
      t.h = s.h ∧ t.compressCalls = s.compressCalls ∧
      (∀ i < n, t.buf.read (s.bufLen.toNat + i) = s.dataIn.getD i 0) ∧
      ∀ a < 64, a < s.bufLen.toNat ∨ s.bufLen.toNat + n ≤ a → t.buf.read a = s.buf.read a

/-- R98: an empty UPDATE changes PHASE only: H, BUF, BUF_LEN, BIT_LEN, the channels and every other
field stay, FAULT too; the buffer's list of cells stays as well where it is in canonical form. -/
def Obligations.EmptyUpdateChangesPhaseOnly : Prop :=
  ∀ s : State, s.running → s.phase.isOpen = true → s.bufLen.toNat ≤ 63 →
    ∃ t, exec (.update 0) s = .next t ∧
      t = { s with phase := .accumulating, buf := t.buf } ∧
      (∀ a < 64, t.buf.read a = s.buf.read a) ∧
      (s.buf.wf → t = { s with phase := .accumulating })

/-- R102: an UPDATE whose data has not all arrived has not yet run; the engine is busy, and nothing else
has changed. How the model holds the wait is its own choice (assumption log 2). -/
def Obligations.UpdateWaitsForData : Prop :=
  ∀ (s : State) (n : Nat),
    s.running → s.phase.isOpen = true → s.bufLen.toNat ≤ 63 → s.bitLen.toNat + 8 * n < 2 ^ 64 →
    s.dataIn.length < n →
    exec (.update n) s = .next { s with pending := some (.update n) } ∧
      State.ready { s with pending := some (.update n) } = false

/-- R35 kept by UPDATE: a state that holds the message M holds M ‖ D after it. -/
def Obligations.UpdateExtendsMessage : Prop :=
  ∀ (s : State) (M : List Byte) (n : Nat),
    s.running → s.phase.isOpen = true → s.Holds M → 8 * (M.length + n) < 2 ^ 64 →
    n ≤ s.dataIn.length →
    ∃ t, exec (.update n) s = .next t ∧ t.Holds (M ++ s.dataIn.take n) ∧ t.phase = .accumulating

/-! FINAL (44_final.md) -/

/-- What a FINAL whose checks pass leaves (R103 to R111): H is COMPRESS applied to the blocks of
BUF[0..b−1] ‖ 0x80 ‖ zeros ‖ be64bytes(BIT_LEN), one block when b ≤ 55 and two when b ≥ 56 (R109); BUF
holds the last of them; the digest of H goes out; BUF_LEN is a draw in 0..64, of which the statement
says nothing but the bound. -/
def Obligations.FinalPadsAndEmits : Prop :=
  ∀ s : State, s.running → s.phase.isOpen = true → s.bufLen.toNat ≤ 63 →
    ∃ t zeros, exec .final s = .next t ∧
      zeros = (if s.bufLen.toNat ≤ 55 then 55 - s.bufLen.toNat else 119 - s.bufLen.toNat) ∧
      t.h = hashBlocks s.h (s.memRead 0 s.bufLen.toNat ++ [0x80] ++ List.replicate zeros 0x00 ++
        be64bytes s.bitLen) ∧
      t.compressCalls = s.compressCalls + (if s.bufLen.toNat ≤ 55 then 1 else 2) ∧
      t.digestOut = s.digestOut ++ digestBytes t.h ∧
      t.memRead 0 64 =
        (if s.bufLen.toNat ≤ 55 then
          s.memRead 0 s.bufLen.toNat ++ [0x80] ++ List.replicate zeros 0x00 ++ be64bytes s.bitLen
        else List.replicate 56 0x00 ++ be64bytes s.bitLen) ∧
      t.bufLen.toNat ≤ 64 ∧
      t.phase = .finalized

/-- FINAL's frame: BIT_LEN (R110), HALTED, FAULT, the command in flight, the data-in channel, the host's
moves and what the host has received are unchanged whenever FINAL takes effect, and so is every byte
of the buffer it does not store to: with b = BUF_LEN on entry it stores to BUF[b..63] when b ≤ 55, and
to all of BUF otherwise (R104 to R107). -/
def Obligations.FinalFrame : Prop :=
  ∀ s t : State, exec .final s = .next t → t.fault = .none →
    t.bitLen = s.bitLen ∧ t.halted = s.halted ∧ t.fault = s.fault ∧ t.pending = s.pending ∧
    t.dataIn = s.dataIn ∧ t.host = s.host ∧ t.received = s.received ∧
    ∀ a < 64, a < s.bufLen.toNat → s.bufLen.toNat ≤ 55 → t.buf.read a = s.buf.read a

/-- R45 and R110: FINAL's length field is be64bytes(BIT_LEN), most significant byte first, and BIT_LEN
stays as it was. -/
def Obligations.LengthFieldIsBigEndian : Prop :=
  ∀ s : State, s.running → s.phase.isOpen = true → s.bufLen.toNat ≤ 63 →
    ∃ t, exec .final s = .next t ∧ t.bitLen = s.bitLen ∧
      ∀ k < 8, t.buf.read (56 + k) = s.bitLen.extractLsb' (56 - 8 * k) 8

/-- R46: digest byte 4i + j is H[i][31 − 8j : 24 − 8j], and a FINAL emits exactly 32 bytes (R43). -/
def Obligations.DigestIsBigEndian : Prop :=
  ∀ s : State, s.running → s.phase.isOpen = true → s.bufLen.toNat ≤ 63 →
    ∃ t D, exec .final s = .next t ∧ t.digestOut = s.digestOut ++ D ∧ D.length = 32 ∧
      ∀ (i : Fin 8) (j : Fin 4), D.getD (4 * i.val + j.val) 0 = t.h[i].extractLsb' (24 - 8 * j.val) 8

/-- R113: a FINAL in a state that holds the message M emits SHA256(M), the digest of the padded message,
which has ⌊(|M| + 8)/64⌋ + 1 blocks. -/
def Obligations.FinalEmitsSha256 : Prop :=
  ∀ (s : State) (M : List Byte), s.running → s.phase.isOpen = true → s.Holds M →
    (padded M).length = 64 * ((M.length + 8) / 64 + 1) ∧
    ∃ t, exec .final s = .next t ∧ t.digestOut = s.digestOut ++ sha256 M ∧ t.phase = .finalized

/-- R101: from INIT, every split of a message into UPDATEs leaves the same H, BUF_LEN, BIT_LEN and
BUF[0..BUF_LEN−1], those of R35, and FINAL emits the same digest, SHA256 of the message, with
⌊(|M| + 8)/64⌋ + 1 COMPRESS calls in all (R151). -/
def Obligations.StreamingEquivalence : Prop :=
  ∀ (s : State) (counts counts' : List Nat),
    s.running → (∀ c ∈ counts, c ≤ 2 ^ 32 - 1) → (∀ c ∈ counts', c ≤ 2 ^ 32 - 1) →
    counts.sum = counts'.sum → counts.sum ≤ s.dataIn.length → 8 * counts.sum < 2 ^ 64 →
    ∃ t t' u u',
      execAll (.init :: updates counts) s = .next t ∧ execAll (.init :: updates counts') s = .next t' ∧
      exec .final t = .next u ∧ exec .final t' = .next u' ∧
      t.Holds (s.dataIn.take counts.sum) ∧
      t.h = t'.h ∧ t.bufLen = t'.bufLen ∧ t.bitLen = t'.bitLen ∧
      t.memRead 0 t.bufLen.toNat = t'.memRead 0 t'.bufLen.toNat ∧
      u.digestOut = s.digestOut ++ sha256 (s.dataIn.take counts.sum) ∧
      u'.digestOut = u.digestOut ∧
      u.compressCalls = s.compressCalls + ((counts.sum + 8) / 64 + 1) ∧
      u'.compressCalls = u.compressCalls

/-- The same through the ports (R143, R148): a host that meets its duties, and issues INIT, one UPDATE
per piece with its bytes, and FINAL, receives SHA256 of the pieces' concatenation, from every idle
state and whatever it does afterwards; the engine is then idle again. -/
def Obligations.HostReceivesSha256 : Prop :=
  ∀ (s : State) (pieces : List (List Byte)) (rest : List HostMove),
    s.running → s.pending = none → s.dataIn = [] → s.digestOut = [] →
    (∀ d ∈ pieces, d.length ≤ 2 ^ 32 - 1) → 8 * pieces.flatten.length < 2 ^ 64 →
    s.host = hostProgram ([⟨encode .init, []⟩] ++
      pieces.map (fun d => ⟨encode (.update d.length), d⟩) ++ [⟨encode .final, []⟩]) ++ rest →
    ∃ (k : Nat) (t : State), Sys2Proof.core.run k s = .next t ∧
      t.received = s.received ++ sha256 pieces.flatten ∧ t.host = rest ∧
      t.running ∧ t.ready = true ∧ t.dataIn = [] ∧ t.phase = .finalized

/-! Faults and the abort (60_exceptions.md) -/

/-- R121: UPDATE and FINAL in UNINIT or FINALIZED record ContractViolation(PHASE, command) and change
nothing else; INIT never raises it. -/
def Obligations.ContractViolationIsRecorded : Prop :=
  (∀ (s : State) (n : Nat), s.running → s.phase = .uninit ∨ s.phase = .finalized →
    exec (.update n) s = .next { s with fault := .contractViolation s.phase (.update n) } ∧
    exec .final s = .next { s with fault := .contractViolation s.phase .final }) ∧
  (∀ s t : State, exec .init s = .next t → t.fault = s.fault)

/-- R122: BUF_LEN > 63 on entry to UPDATE or FINAL aborts: HALTED is set, InvariantAbort(BUF_LEN) is
recorded, and everything else keeps its value (R127). -/
def Obligations.CorruptIndexAborts : Prop :=
  ∀ (s : State) (n : Nat), s.running → s.phase.isOpen = true → 63 < s.bufLen.toNat →
    exec (.update n) s = .next { s with halted := true, fault := .invariantAbort s.bufLen } ∧
    exec .final s = .next { s with halted := true, fault := .invariantAbort s.bufLen }

/-- R124: an UPDATE whose total does not fit records LengthOverflow(BIT_LEN, n), and no wrapped value is
written; the first message length that overflows is 2^61 bytes. -/
def Obligations.LengthOverflowIsRecorded : Prop :=
  ∀ (s : State) (n : Nat), s.running → s.phase.isOpen = true → s.bufLen.toNat ≤ 63 →
    (2 ^ 64 ≤ s.bitLen.toNat + 8 * n →
      exec (.update n) s = .next { s with fault := .lengthOverflow s.bitLen n }) ∧
    (∀ M, s.Holds M → (s.lengthOverflows n = true ↔ 2 ^ 61 ≤ M.length + n))

/-- R118: a command that records a fault changes nothing but FAULT, and HALTED for the abort alone, and
no command is taken after it. -/
def Obligations.FaultsArePrecise : Prop :=
  ∀ (i : Instr) (s t : State), exec i s = .next t → t.fault ≠ .none →
    t = { s with fault := t.fault, halted := t.halted } ∧ (t.halted = true ↔ t.fault.code = 3) ∧
    ∀ j, ∃ f, exec j t = .fault f

/-- R125: of several conditions that hold for one command, exactly the first is taken: the halt, the
illegal descriptor, the phase, the buffer index, the bit count. That the halted engine's 'no step' is the
stop Fault.halted is the model's choice (assumption log 6). -/
def Obligations.FirstConditionWins : Prop :=
  ∀ (s : State) (w : Descriptor) (rest : List HostMove), s.host = .command w :: rest →
    (s.halted = true → step s = .fault .halted) ∧
    (s.running → s.ready = true →
      ((∀ why, decode w = .illegal why →
        step s = .next { s with host := rest, fault := .illegalCommand w }) ∧
      ∀ i, decode w = .command i → i ≠ .init →
        (s.phase.isOpen = false →
          step s = .next { s with host := rest, fault := .contractViolation s.phase i }) ∧
        (s.phase.isOpen = true → 63 < s.bufLen.toNat →
          step s = .next
            { s with host := rest, halted := true, fault := .invariantAbort s.bufLen }) ∧
        (s.phase.isOpen = true → s.bufLen.toNat ≤ 63 → ∀ n, i = .update n →
          2 ^ 64 ≤ s.bitLen.toNat + 8 * n →
          step s = .next { s with host := rest, fault := .lengthOverflow s.bitLen n })))

/-- R25 and R126: a halted engine and a faulted state take no step but a power-on reset; a halted engine
is not ready and takes no command, not even INIT. -/
def Obligations.StoppedTakesNoStep : Prop :=
  (∀ s : State, ¬ s.running → s.resetNext = false →
    step s = .fault (if s.halted then .halted else .faulted s.fault)) ∧
  (∀ (s : State) (i : Instr), s.halted = true → s.ready = false ∧ exec i s = .fault .halted)

/-- R126: in the model a state with HALTED = 1 has FAULT = InvariantAbort: so it is at reset, and every
step keeps it. -/
def Obligations.HaltedRecordsAbort : Prop :=
  (State.reset.halted = true → State.reset.fault.code = 3) ∧
  ∀ s t : State, (s.halted = true → s.fault.code = 3) → step s = .next t →
    (t.halted = true → t.fault.code = 3)

/-! Reset (70_reset_and_hazards.md) -/

/-- The reset state (R139, R140): every register of R27's table is 0, so H is not IV; PHASE is UNINIT,
FAULT is NONE, READY is 1 and both channels are empty. That nothing is in flight, that the host has
no move and has received nothing is the model's own (assumption logs 1, 2). -/
def Obligations.ResetValues : Prop :=
  (∀ id < 75, State.reset.regValue id = some 0) ∧ State.reset.h ≠ iv ∧
  State.reset.phase = .uninit ∧ State.reset.fault = .none ∧ State.reset.ready = true ∧
  State.reset.dataIn = [] ∧ State.reset.digestOut = [] ∧
  State.reset.pending = none ∧ State.reset.host = [] ∧ State.reset.received = []

/-- Power-on reset, at any time and from every state, halted or faulted too, sets every element of the
engine as R139 says, and no other step takes HALTED from 1 to 0 or FAULT to NONE (R128, R139). That
the host's coming moves and the draws go on is the model's choice (assumption log 12). A new run starts,
which has shown nothing yet (R145). -/
def Obligations.PowerOnResetRestoresEverything : Prop :=
  (∀ (s : State) (rest : List HostMove), s.host = .powerOnReset :: rest →
    step s = .next { State.reset with host := rest, draws := s.draws }) ∧
  (∀ s t : State, step s = .next t →
    (s.halted = true ∧ t.halted = false) ∨ (s.fault ≠ .none ∧ t.fault = .none) → s.resetNext = true)

/-! Invariants and whole-machine rules (10_state.md) -/

/-- The invariants hold at reset: the bounds of R19, R40 and R122, and R35's (no message is open). -/
def Obligations.ResetWellKept : Prop := State.reset.WellKept ∧ State.reset.HoldsSome

/-- Every step keeps the bounds: BUF_LEN in 0..63 outside FINALIZED and in 0..64 in it (R19, C7), the
buffer in canonical form (R40), no abort (R122), and the port conditions of R102, R145 and R147. -/
def Obligations.StepKeepsBounds : Prop :=
  ∀ s t : State, s.WellKept → step s = .next t → t.WellKept

/-- R122's remark: no run from reset, whatever the host does, reaches the abort. -/
def Obligations.RunsNeverAbort : Prop :=
  ∀ (moves : List HostMove) (k : Nat) (t : State),
    Sys2Proof.core.run k { State.reset with host := moves } = .next t →
    t.WellKept ∧ t.halted = false

/-- R35: every step keeps it that a state in INITIALIZED or ACCUMULATING holds some message: BUF_LEN and
BUF hold its unconsumed tail, BIT_LEN is 8 times its length, and H is COMPRESS applied from IV to its
whole blocks. -/
def Obligations.StepKeepsMessageInvariant : Prop :=
  ∀ s t : State, s.HoldsSome → step s = .next t → t.HoldsSome

/-- R17: H is written by INIT, by COMPRESS on 64-byte blocks, and by power-on reset, and by nothing
else. -/
def Obligations.WritersOfWorkingState : Prop :=
  ∀ s t : State, step s = .next t →
    (t.h = iv ∧ t.phase = .initialized) ∨ (s.resetNext = true ∧ t.h = State.reset.h) ∨
      ∃ blocks : List (List Byte), (∀ B ∈ blocks, B.length = 64) ∧
        t.h = blocks.foldl compress s.h ∧ t.compressCalls = s.compressCalls + blocks.length

/-- R23: the table of PHASE transitions, for commands whose other checks pass and whose data has
arrived; a cell marked "fault" raises ContractViolation and keeps PHASE. -/
def Obligations.PhaseTransitions : Prop :=
  ∀ s : State, s.running →
    (∃ t, exec .init s = .next t ∧ t.phase = .initialized) ∧
    (s.phase = .initialized ∨ s.phase = .accumulating → s.bufLen.toNat ≤ 63 →
      (∀ n, s.bitLen.toNat + 8 * n < 2 ^ 64 → n ≤ s.dataIn.length →
        ∃ t, exec (.update n) s = .next t ∧ t.phase = .accumulating ∧ t.fault = .none) ∧
      ∃ t, exec .final s = .next t ∧ t.phase = .finalized ∧ t.fault = .none) ∧
    (s.phase = .uninit ∨ s.phase = .finalized →
      (∀ n, ∃ t, exec (.update n) s = .next t ∧ t.phase = s.phase ∧ t.fault.code = 2) ∧
      ∃ t, exec .final s = .next t ∧ t.phase = s.phase ∧ t.fault.code = 2)

/-- R42 and R43: only an UPDATE takes bytes from the data-in channel, and exactly n; only a FINAL puts
bytes on the digest-out channel, and exactly 32. -/
def Obligations.ChannelsBelongToTheirCommands : Prop :=
  ∀ (i : Instr) (s t : State), exec i s = .next t →
    (t.dataIn = s.dataIn ∨
      ∃ n, i = .update n ∧ n ≤ s.dataIn.length ∧ t.dataIn = s.dataIn.drop n) ∧
    (t.digestOut = s.digestOut ∨
      i = .final ∧ ∃ D : List Byte, D.length = 32 ∧ t.digestOut = s.digestOut ++ D)

/-- R36: stale buffer bytes are unobservable. Two states that differ in them alone answer every command
alike: the same next state but for stale bytes, so the same digest. That they draw the same BUF_LEN
after a FINAL, since their counts of draws are equal, is the model's choice (assumption log 8). -/
def Obligations.StaleBytesAreUnobservable : Prop :=
  ∀ (s s' : State), s.AgreeLive s' → ∀ (i : Instr),
    (∀ t, exec i s = .next t → ∃ t', exec i s' = .next t' ∧ t.AgreeLive t' ∧
      t'.digestOut = t.digestOut) ∧
    (∀ f, exec i s = .fault f → exec i s' = .fault f) ∧
    (∀ r, exec i s = .refused r → exec i s' = .refused r)

/-- R55 and R136: an engine's step reads and writes its own state alone, so steps of two engines commute
and neither sees the other. -/
def Obligations.EnginesAreIndependent : Prop :=
  ∀ (n : Nat) (p q : Platform n) (i : Fin n), p.step i = .next q →
    step p.engines[i] = .next q.engines[i] ∧ (∀ j : Fin n, j ≠ i → q.engines[j] = p.engines[j]) ∧
    (∀ (j : Fin n) (r : Platform n), j ≠ i → q.step j = .next r →
      ∃ q', p.step j = .next q' ∧ q'.step i = .next r)

/-! The transform (41_compression.md) -/

/-- R68 and R69: Ch and Maj, as formulas and bit by bit, with their corner cases and examples. -/
def Obligations.ChooseAndMajority : Prop :=
  (∀ x y z : Word,
    choose x y z = (x &&& y) ^^^ (~~~x &&& z) ∧
    majority x y z = (x &&& y) ^^^ (x &&& z) ^^^ (y &&& z) ∧
    (∀ i < 32, (choose x y z).getLsbD i = if x.getLsbD i then y.getLsbD i else z.getLsbD i) ∧
    (∀ i < 32, (majority x y z).getLsbD i =
      decide (2 ≤ (x.getLsbD i).toNat + (y.getLsbD i).toNat + (z.getLsbD i).toNat)) ∧
    choose 0xFFFFFFFF y z = y ∧ choose 0 y z = z ∧ majority 0xFFFFFFFF y 0 = y ∧
    majority x x z = x) ∧
  choose 0x510e527f 0x9b05688c 0x1f83d9ab = 0x1f85c98c ∧
  majority 0x6a09e667 0xbb67ae85 0x3c6ef372 = 0x3a6fe667

/-- R70, R71 and R72, and the formula of R73: the mixing functions as rotations and shifts, with their
corner cases and examples. -/
def Obligations.MixingFunctions : Prop :=
  (∀ x : Word,
    bigSigma0 x = x.rotateRight 2 ^^^ x.rotateRight 13 ^^^ x.rotateRight 22 ∧
    bigSigma1 x = x.rotateRight 6 ^^^ x.rotateRight 11 ^^^ x.rotateRight 25 ∧
    smallSigma0 x = x.rotateRight 7 ^^^ x.rotateRight 18 ^^^ x >>> 3 ∧
    smallSigma1 x = x.rotateRight 17 ^^^ x.rotateRight 19 ^^^ x >>> 10) ∧
  (bigSigma0 0 = 0 ∧ bigSigma0 0xFFFFFFFF = 0xFFFFFFFF ∧ bigSigma0 0x00000001 = 0x40080400 ∧
    bigSigma0 0x6a09e667 = 0xce20b47e) ∧
  (bigSigma1 0 = 0 ∧ bigSigma1 0xFFFFFFFF = 0xFFFFFFFF ∧ bigSigma1 0x00000001 = 0x04200080 ∧
    bigSigma1 0x510e527f = 0x3587272b) ∧
  (smallSigma0 0 = 0 ∧ smallSigma0 0xFFFFFFFF = 0x1fffffff ∧ smallSigma0 0x80000000 = 0x11002000 ∧
    smallSigma0 0x6a09e667 = 0xba0cf582) ∧
  (smallSigma1 0 = 0 ∧ smallSigma1 0xFFFFFFFF = 0x003fffff ∧ smallSigma1 0x00000001 = 0x0000a000 ∧
    smallSigma1 0x510e527f = 0xe3640132)

/-- R44, R76 and R77: the schedule has 64 words, the first 16 are the block's bytes read big-endian, and
each later one is W[t] = σ1(W[t−2]) + W[t−7] + σ0(W[t−15]) + W[t−16]; with R77's corner cases and
example. -/
def Obligations.ScheduleRecurrence : Prop :=
  (∀ B : List Byte,
    (schedule B).length = 64 ∧
    (∀ t < 16, ((schedule B).getD t 0).toNat =
      (B.getD (4 * t) 0).toNat * 2 ^ 24 + (B.getD (4 * t + 1) 0).toNat * 2 ^ 16 +
        (B.getD (4 * t + 2) 0).toNat * 2 ^ 8 + (B.getD (4 * t + 3) 0).toNat) ∧
    ∀ t, 16 ≤ t → t < 64 →
      (schedule B).getD t 0 =
        smallSigma1 ((schedule B).getD (t - 2) 0) + (schedule B).getD (t - 7) 0 +
          smallSigma0 ((schedule B).getD (t - 15) 0) + (schedule B).getD (t - 16) 0) ∧
  (∀ t < 64, (schedule (List.replicate 64 0x00)).getD t 0 = 0) ∧
  (schedule (List.replicate 64 0xFF)).getD 16 0 = 0x203ffffc ∧
  (schedule ([0x61, 0x62, 0x63, 0x80] ++ List.replicate 59 0x00 ++ [0x18])).getD 16 0 = 0x61626380 ∧
  (schedule ([0x61, 0x62, 0x63, 0x80] ++ List.replicate 59 0x00 ++ [0x18])).getD 63 0 = 0x12b1edeb

/-- R78 to R81: COMPRESS seeds a..h from H, runs 64 rounds in order, round t with K[t] and W[t], and adds
the working variables back word by word. -/
def Obligations.CompressRunsSixtyFourRounds : Prop :=
  ∀ (H : HashState) (B : List Byte), ∃ v : Nat → WorkVars,
    v 0 = ⟨H[0], H[1], H[2], H[3], H[4], H[5], H[6], H[7]⟩ ∧
    (∀ t < 64,
      let u := v t
      let T1 := u.h + bigSigma1 u.e + choose u.e u.f u.g + roundConstants.getD t 0 +
        (schedule B).getD t 0
      let T2 := bigSigma0 u.a + majority u.a u.b u.c
      v (t + 1) = ⟨T1 + T2, u.a, u.b, u.c, u.d + T1, u.e, u.f, u.g⟩) ∧
    compress H B =
      #v[H[0] + (v 64).a, H[1] + (v 64).b, H[2] + (v 64).c, H[3] + (v 64).d,
        H[4] + (v 64).e, H[5] + (v 64).f, H[6] + (v 64).g, H[7] + (v 64).h]

/-- The worked values V-C1 and V-C3: COMPRESS of H = 0 on a zero block, and of IV on the padded "abc"
block. -/
def Obligations.CompressWorkedValues : Prop :=
  compress State.reset.h (List.replicate 64 0x00) =
    #v[0x7ca51614, 0x425c3ba8, 0xce54dd2f, 0xc2020ae7, 0xb6e574d1, 0x98136d0f, 0xae7e26cc,
      0xbf0be7a6] ∧
  compress iv ([0x61, 0x62, 0x63, 0x80] ++ List.replicate 59 0x00 ++ [0x18]) =
    #v[0xba7816bf, 0x8f01cfea, 0x414140de, 0x5dae2223, 0xb00361a3, 0x96177a9c, 0xb410ff61,
      0xf20015ad]

/-- R12: be32 is the sum with the first byte most significant, be32bytes is its inverse both ways, and
be64bytes gives the eight bytes of a 64-bit value, most significant first. -/
def Obligations.ByteOrderHelpers : Prop :=
  (∀ b0 b1 b2 b3 : Byte,
    (be32 b0 b1 b2 b3).toNat =
      b0.toNat * 2 ^ 24 + b1.toNat * 2 ^ 16 + b2.toNat * 2 ^ 8 + b3.toNat ∧
    be32bytes (be32 b0 b1 b2 b3) = [b0, b1, b2, b3]) ∧
  (∀ w : Word, ∃ b0 b1 b2 b3, be32bytes w = [b0, b1, b2, b3] ∧ be32 b0 b1 b2 b3 = w) ∧
  (∀ v : BitVec 64, (be64bytes v).length = 8 ∧
    (be64bytes v).foldl (fun n b => 256 * n + b.toNat) 0 = v.toNat)

/-! The assembler (30_encoding.md §4) -/

/-- R67: HASH expands to INIT, then UPDATEs that carry the data in order, every one but the last exactly
2^32 − 1 bytes, then FINAL, with the fewest UPDATEs there can be (at least one). -/
def Obligations.HashExpandsToFewestUpdates : Prop :=
  ∀ data : List Byte, ∃ pieces : List (List Byte),
    assembleHash data = [⟨encode .init, []⟩] ++
      pieces.map (fun d => ⟨encode (.update d.length), d⟩) ++ [⟨encode .final, []⟩] ∧
    pieces.flatten = data ∧ pieces ≠ [] ∧
    (∀ d ∈ pieces.dropLast, d.length = 2 ^ 32 - 1) ∧ (∀ d ∈ pieces, d.length ≤ 2 ^ 32 - 1) ∧
    (∀ other : List (List Byte), other ≠ [] → other.flatten = data →
      (∀ d ∈ other, d.length ≤ 2 ^ 32 - 1) → pieces.length ≤ other.length) ∧
    (data.length ≤ 2 ^ 32 - 1 → pieces = [data])

/-- R65: UPDATE <data> assembles to LEN = |data| followed by the data, and to an error for more than
2^32 − 1 bytes. -/
def Obligations.AssembledUpdateCarriesItsData : Prop :=
  ∀ atoms : List Atom,
    ((literalBytes atoms).length ≤ 2 ^ 32 - 1 → ∃ c, assembleLine (.update atoms) = some [c] ∧
      c.data = literalBytes atoms ∧ decode c.descriptor = .command (.update c.data.length)) ∧
    (2 ^ 32 - 1 < (literalBytes atoms).length → assembleLine (.update atoms) = none)

/-! Runs and platforms (70_reset_and_hazards.md §3, 20_memory.md §5) -/

/-- R145: a run that has not ended well shows nothing; power-on reset starts a run that has shown nothing;
and from every idle state, a host that hashes messages one after the other, meeting its duties, ends
well and has been shown their digests in order, after those it had been shown before. -/
def Obligations.RunShowsItsDigests : Prop :=
  (∀ s : State, ¬ s.endsWell → s.shows = none) ∧
  (∀ s t : State, s.resetNext = true → step s = .next t → t.host = [] → t.shows = some []) ∧
  ∀ (s : State) (messages : List (List Byte)),
    s.running → s.pending = none → s.dataIn = [] → s.digestOut = [] → s.received.length % 32 = 0 →
    (∀ M ∈ messages, 8 * M.length < 2 ^ 64) →
    s.host = hostProgram (messages.flatMap assembleHash) →
    ∃ (k : Nat) (t : State), Sys2Proof.core.run k s = .next t ∧
      t.shows = some (digestsIn s.received ++ messages.map sha256)

/-- R51 and R55: an access adds to each engine's coming moves exactly the moves it is bound to at that
engine, in their order, and changes nothing else; what it shows of READY and HALTED is those outputs as
they are (R26). The form of a binding is the model's choice (assumption log 16). -/
def Obligations.AccessReachesItsEngines : Prop :=
  ∀ (Access Mem : Type) (n : Nat) (binding : Binding Access Mem n) (a : Access) (mem : Mem)
    (p : Platform n),
    (∀ i : Fin n, (Platform.access binding a mem p).engines[i] =
      p.engines[i].setHost (p.engines[i].host ++
        ((binding.moves a mem).filter (fun im => im.1 = i)).map Prod.snd)) ∧
    Platform.shown binding a mem p = (binding.reads a mem).map fun io =>
      match io.2 with
      | .ready => p.engines[io.1].ready
      | .halted => p.engines[io.1].halted
end

