-- ==== Sys2Proof/Laws/Blocks.lean ====
section
/-! SUPPORT. Byte strings cut into 64-byte blocks and hashed (rules R95, R99, R113). -/

namespace Sys2Proof.Machine

theorem blocksOf_length (k : Nat) (d : List Byte) : (blocksOf k d).length = k := by
  induction k generalizing d with
  | zero => rfl
  | succ k ih => simp [blocksOf, ih]

/-- Every block cut from a long enough string has 64 bytes. -/
theorem blocksOf_block_length {k : Nat} {d : List Byte} (h : 64 * k ≤ d.length) :
    ∀ B ∈ blocksOf k d, B.length = 64 := by
  induction k generalizing d with
  | zero => simp [blocksOf]
  | succ k ih =>
    intro B hB
    rcases List.mem_cons.1 hB with rfl | hB
    · simp; omega
    · exact ih (d := d.drop 64) (by simp; omega) B hB

theorem blocksOf_add (j k : Nat) (d : List Byte) :
    blocksOf (j + k) d = blocksOf j d ++ blocksOf k (d.drop (64 * j)) := by
  induction j generalizing d with
  | zero => simp [blocksOf]
  | succ j ih =>
    rw [Nat.succ_add, blocksOf, blocksOf, ih, List.drop_drop, List.cons_append,
      show 64 + 64 * j = 64 * (j + 1) by omega]

/-- Bytes after the last block do not matter. -/
theorem blocksOf_append {k : Nat} {d : List Byte} (e : List Byte) (h : 64 * k ≤ d.length) :
    blocksOf k (d ++ e) = blocksOf k d := by
  induction k generalizing d with
  | zero => rfl
  | succ k ih =>
    simp only [blocksOf]
    rw [List.take_append_of_le_length (by omega), List.drop_append_of_le_length (by omega),
      ih (by simp; omega)]

/-- A string that is a whole number of blocks is hashed before what follows it. -/
theorem hashBlocks_append (H : HashState) (d e : List Byte) (h : d.length % 64 = 0) :
    hashBlocks H (d ++ e) = hashBlocks (hashBlocks H d) e := by
  have hd : 64 * (d.length / 64) = d.length := by omega
  have hk : (d ++ e).length / 64 = d.length / 64 + e.length / 64 := by
    rw [List.length_append]; omega
  unfold hashBlocks
  rw [hk, blocksOf_add, List.foldl_append, blocksOf_append e (by omega), hd, List.drop_left]

/-- A string shorter than a block hashes to nothing new. -/
theorem hashBlocks_short (H : HashState) {d : List Byte} (h : d.length < 64) : hashBlocks H d = H := by
  unfold hashBlocks
  rw [Nat.div_eq_of_lt h]
  rfl

/-- One block is one COMPRESS. -/
theorem hashBlocks_block (H : HashState) {d : List Byte} (h : d.length = 64) :
    hashBlocks H d = compress H d := by
  unfold hashBlocks
  rw [h, show 64 / 64 = 1 from rfl, blocksOf, blocksOf, List.foldl_cons, List.foldl_nil,
    List.take_of_length_le (by omega)]

end Sys2Proof.Machine
end

