-- ==== Sys2Proof/Laws/Compress.lean ====
section
/-! SUPPORT. What the schedule's extension and the rounds do, said once (rules R77, R80). -/

namespace Sys2Proof.Machine

/-- `k` words more: the words there were stay, and each new one follows the recurrence of R77. -/
theorem extendSchedule_spec (k : Nat) (W : List Word) (h : 16 ≤ W.length) :
    (extendSchedule k W).length = W.length + k ∧
      (∀ t < W.length, (extendSchedule k W).getD t 0 = W.getD t 0) ∧
      ∀ t, W.length ≤ t → t < W.length + k →
        (extendSchedule k W).getD t 0 =
          smallSigma1 ((extendSchedule k W).getD (t - 2) 0) + (extendSchedule k W).getD (t - 7) 0 +
            smallSigma0 ((extendSchedule k W).getD (t - 15) 0) +
            (extendSchedule k W).getD (t - 16) 0 := by
  induction k generalizing W with
  | zero => exact ⟨rfl, fun _ _ => rfl, fun t a b => by omega⟩
  | succ k ih =>
    obtain ⟨h1, h2, h3⟩ := ih (W ++ [nextScheduleWord W]) (by simp; omega)
    rw [extendSchedule]
    simp only [List.length_append, List.length_cons, List.length_nil] at h1 h2 h3
    have h4 : ∀ t < W.length,
        (extendSchedule k (W ++ [nextScheduleWord W])).getD t 0 = W.getD t 0 := fun t ht => by
      rw [h2 t (by omega), List.getD_append _ _ _ _ ht]
    refine ⟨by omega, h4, fun t ht1 ht2 => ?_⟩
    by_cases ht : t = W.length
    · subst ht
      rw [h2 W.length (by omega), h4 _ (by omega), h4 _ (by omega), h4 _ (by omega), h4 _ (by omega)]
      simp [nextScheduleWord]
    · exact h3 t (by omega) (by omega)

theorem roundConstants_length : roundConstants.length = 64 := by decide

/-- The rounds as a sequence of working variables, one round each (R79, R80). -/
theorem runRounds_spec (u : WorkVars) (W : List Word) (hW : W.length = 64) :
    ∃ v : Nat → WorkVars, v 0 = u ∧
      (∀ t < 64, v (t + 1) = roundStep (v t) (roundConstants.getD t 0) (W.getD t 0)) ∧
      v 64 = runRounds u W := by
  have hz : (roundConstants.zip W).length = 64 := by
    rw [List.length_zip, hW, roundConstants_length]; rfl
  refine ⟨fun t => ((roundConstants.zip W).take t).foldl (fun u kw => roundStep u kw.1 kw.2) u,
    ?_, fun t ht => ?_, ?_⟩
  · simp only [List.take_zero, List.foldl_nil]
  · have e : (roundConstants.zip W)[t]? = some (roundConstants.getD t 0, W.getD t 0) := by
      rw [List.getElem?_eq_getElem (by omega), List.getElem_zip,
        List.getD_eq_getElem _ _ (by rw [roundConstants_length]; exact ht),
        List.getD_eq_getElem _ _ (by omega)]
    simp only []
    rw [List.take_add_one, List.foldl_append, e]
    rfl
  · simp only [runRounds]
    rw [List.take_of_length_le (by omega)]

end Sys2Proof.Machine
end

