-- ==== Sys2Proof/Laws/Decode.lean ====
section
/-! SUPPORT. The fields of a packed descriptor, and a descriptor from its fields (rule R56). -/

namespace Sys2Proof

theorem opField_packFields (op : BitVec 4) (len : BitVec 32) : opField (packFields op len) = op := by
  ext i hi
  simp [opField, packFields, show i < 64 by omega, show i < 32 by omega, BitVec.getLsbD_eq_getElem hi]

theorem rsvdField_packFields (op : BitVec 4) (len : BitVec 32) : rsvdField (packFields op len) = 0 := by
  ext i hi
  simp [rsvdField, packFields]
  omega

theorem lenField_packFields (op : BitVec 4) (len : BitVec 32) : lenField (packFields op len) = len := by
  ext i hi
  have h : op.getLsbD (32 + i) = false := BitVec.getLsbD_of_ge _ _ (by omega)
  simp [lenField, packFields, show 32 + i < 64 by omega, h, BitVec.getLsbD_eq_getElem hi]

/-- A descriptor whose RSVD is 0 is packed from its OP and LEN. -/
theorem packFields_fields {w : Descriptor} (h : rsvdField w = 0) :
    packFields (opField w) (lenField w) = w := by
  ext i hi
  have hr : ∀ j < 28, w.getLsbD (4 + j) = false := fun j hj => by
    have := congrArg (fun v : BitVec 28 => v.getLsbD j) h
    simpa [rsvdField, hj] using this
  by_cases h1 : i < 4
  · simp [packFields, opField, lenField, h1, show i < 32 by omega, BitVec.getLsbD_eq_getElem hi]
  · by_cases h2 : i < 32
    · have := hr (i - 4) (by omega)
      rw [show 4 + (i - 4) = i by omega, BitVec.getLsbD_eq_getElem hi] at this
      simp [packFields, opField, lenField, h1, h2, this]
    · simp [packFields, opField, lenField, h1, h2, show i - 32 < 32 by omega,
        show 32 + (i - 32) = i by omega, BitVec.getLsbD_eq_getElem hi]

/-- A packed descriptor as a number: OP in the low bits, LEN from bit 32 up. -/
theorem packFields_toNat (op : BitVec 4) (len : BitVec 32) :
    (packFields op len).toNat = len.toNat * 2 ^ 32 + op.toNat := by
  have h1 := op.isLt
  have h2 := len.isLt
  simp only [packFields, BitVec.toNat_or, BitVec.toNat_shiftLeft, BitVec.toNat_setWidth]
  rw [Nat.mod_eq_of_lt (show len.toNat < 2 ^ 64 by omega), Nat.mod_eq_of_lt (show op.toNat < 2 ^ 64 by omega),
    Nat.mod_eq_of_lt (by rw [Nat.shiftLeft_eq]; omega), ← Nat.shiftLeft_add_eq_or_of_lt (by omega),
    Nat.shiftLeft_eq]

end Sys2Proof
end

