-- ==== Sys2Proof/Laws/State.lean ====
section
/-! SUPPORT. One lemma per field per named update of the state, each true by definition, so that no
proof unfolds a record update. -/

namespace Sys2Proof.Machine

/-! `State.memWrite` -/

@[simp] theorem State.memWrite_h (s : State) (a : Nat) (d : List Byte) : (s.memWrite a d).h = s.h := rfl
@[simp] theorem State.memWrite_buf (s : State) (a : Nat) (d : List Byte) : (s.memWrite a d).buf = s.buf.writeBytes a d := rfl
@[simp] theorem State.memWrite_bufLen (s : State) (a : Nat) (d : List Byte) : (s.memWrite a d).bufLen = s.bufLen := rfl
@[simp] theorem State.memWrite_bitLen (s : State) (a : Nat) (d : List Byte) : (s.memWrite a d).bitLen = s.bitLen := rfl
@[simp] theorem State.memWrite_halted (s : State) (a : Nat) (d : List Byte) : (s.memWrite a d).halted = s.halted := rfl
@[simp] theorem State.memWrite_phase (s : State) (a : Nat) (d : List Byte) : (s.memWrite a d).phase = s.phase := rfl
@[simp] theorem State.memWrite_fault (s : State) (a : Nat) (d : List Byte) : (s.memWrite a d).fault = s.fault := rfl
@[simp] theorem State.memWrite_pending (s : State) (a : Nat) (d : List Byte) : (s.memWrite a d).pending = s.pending := rfl
@[simp] theorem State.memWrite_dataIn (s : State) (a : Nat) (d : List Byte) : (s.memWrite a d).dataIn = s.dataIn := rfl
@[simp] theorem State.memWrite_digestOut (s : State) (a : Nat) (d : List Byte) : (s.memWrite a d).digestOut = s.digestOut := rfl
@[simp] theorem State.memWrite_host (s : State) (a : Nat) (d : List Byte) : (s.memWrite a d).host = s.host := rfl
@[simp] theorem State.memWrite_received (s : State) (a : Nat) (d : List Byte) : (s.memWrite a d).received = s.received := rfl
@[simp] theorem State.memWrite_compressCalls (s : State) (a : Nat) (d : List Byte) : (s.memWrite a d).compressCalls = s.compressCalls := rfl
@[simp] theorem State.memWrite_draws (s : State) (a : Nat) (d : List Byte) : (s.memWrite a d).draws = s.draws := rfl

/-! `State.setBufLen` -/

@[simp] theorem State.setBufLen_h (s : State) (n : Nat) : (s.setBufLen n).h = s.h := rfl
@[simp] theorem State.setBufLen_buf (s : State) (n : Nat) : (s.setBufLen n).buf = s.buf := rfl
@[simp] theorem State.setBufLen_bufLen (s : State) (n : Nat) : (s.setBufLen n).bufLen = BitVec.ofNat 7 n := rfl
@[simp] theorem State.setBufLen_bitLen (s : State) (n : Nat) : (s.setBufLen n).bitLen = s.bitLen := rfl
@[simp] theorem State.setBufLen_halted (s : State) (n : Nat) : (s.setBufLen n).halted = s.halted := rfl
@[simp] theorem State.setBufLen_phase (s : State) (n : Nat) : (s.setBufLen n).phase = s.phase := rfl
@[simp] theorem State.setBufLen_fault (s : State) (n : Nat) : (s.setBufLen n).fault = s.fault := rfl
@[simp] theorem State.setBufLen_pending (s : State) (n : Nat) : (s.setBufLen n).pending = s.pending := rfl
@[simp] theorem State.setBufLen_dataIn (s : State) (n : Nat) : (s.setBufLen n).dataIn = s.dataIn := rfl
@[simp] theorem State.setBufLen_digestOut (s : State) (n : Nat) : (s.setBufLen n).digestOut = s.digestOut := rfl
@[simp] theorem State.setBufLen_host (s : State) (n : Nat) : (s.setBufLen n).host = s.host := rfl
@[simp] theorem State.setBufLen_received (s : State) (n : Nat) : (s.setBufLen n).received = s.received := rfl
@[simp] theorem State.setBufLen_compressCalls (s : State) (n : Nat) : (s.setBufLen n).compressCalls = s.compressCalls := rfl
@[simp] theorem State.setBufLen_draws (s : State) (n : Nat) : (s.setBufLen n).draws = s.draws := rfl

/-! `State.addBits` -/

@[simp] theorem State.addBits_h (s : State) (n : Nat) : (s.addBits n).h = s.h := rfl
@[simp] theorem State.addBits_buf (s : State) (n : Nat) : (s.addBits n).buf = s.buf := rfl
@[simp] theorem State.addBits_bufLen (s : State) (n : Nat) : (s.addBits n).bufLen = s.bufLen := rfl
@[simp] theorem State.addBits_bitLen (s : State) (n : Nat) : (s.addBits n).bitLen = s.bitLen + BitVec.ofNat 64 (8 * n) := rfl
@[simp] theorem State.addBits_halted (s : State) (n : Nat) : (s.addBits n).halted = s.halted := rfl
@[simp] theorem State.addBits_phase (s : State) (n : Nat) : (s.addBits n).phase = s.phase := rfl
@[simp] theorem State.addBits_fault (s : State) (n : Nat) : (s.addBits n).fault = s.fault := rfl
@[simp] theorem State.addBits_pending (s : State) (n : Nat) : (s.addBits n).pending = s.pending := rfl
@[simp] theorem State.addBits_dataIn (s : State) (n : Nat) : (s.addBits n).dataIn = s.dataIn := rfl
@[simp] theorem State.addBits_digestOut (s : State) (n : Nat) : (s.addBits n).digestOut = s.digestOut := rfl
@[simp] theorem State.addBits_host (s : State) (n : Nat) : (s.addBits n).host = s.host := rfl
@[simp] theorem State.addBits_received (s : State) (n : Nat) : (s.addBits n).received = s.received := rfl
@[simp] theorem State.addBits_compressCalls (s : State) (n : Nat) : (s.addBits n).compressCalls = s.compressCalls := rfl
@[simp] theorem State.addBits_draws (s : State) (n : Nat) : (s.addBits n).draws = s.draws := rfl

/-! `State.setPhase` -/

@[simp] theorem State.setPhase_h (s : State) (p : Phase) : (s.setPhase p).h = s.h := rfl
@[simp] theorem State.setPhase_buf (s : State) (p : Phase) : (s.setPhase p).buf = s.buf := rfl
@[simp] theorem State.setPhase_bufLen (s : State) (p : Phase) : (s.setPhase p).bufLen = s.bufLen := rfl
@[simp] theorem State.setPhase_bitLen (s : State) (p : Phase) : (s.setPhase p).bitLen = s.bitLen := rfl
@[simp] theorem State.setPhase_halted (s : State) (p : Phase) : (s.setPhase p).halted = s.halted := rfl
@[simp] theorem State.setPhase_phase (s : State) (p : Phase) : (s.setPhase p).phase = p := rfl
@[simp] theorem State.setPhase_fault (s : State) (p : Phase) : (s.setPhase p).fault = s.fault := rfl
@[simp] theorem State.setPhase_pending (s : State) (p : Phase) : (s.setPhase p).pending = s.pending := rfl
@[simp] theorem State.setPhase_dataIn (s : State) (p : Phase) : (s.setPhase p).dataIn = s.dataIn := rfl
@[simp] theorem State.setPhase_digestOut (s : State) (p : Phase) : (s.setPhase p).digestOut = s.digestOut := rfl
@[simp] theorem State.setPhase_host (s : State) (p : Phase) : (s.setPhase p).host = s.host := rfl
@[simp] theorem State.setPhase_received (s : State) (p : Phase) : (s.setPhase p).received = s.received := rfl
@[simp] theorem State.setPhase_compressCalls (s : State) (p : Phase) : (s.setPhase p).compressCalls = s.compressCalls := rfl
@[simp] theorem State.setPhase_draws (s : State) (p : Phase) : (s.setPhase p).draws = s.draws := rfl

/-! `State.compressBlock` -/

@[simp] theorem State.compressBlock_h (s : State) (B : List Byte) : (s.compressBlock B).h = compress s.h B := rfl
@[simp] theorem State.compressBlock_buf (s : State) (B : List Byte) : (s.compressBlock B).buf = s.buf := rfl
@[simp] theorem State.compressBlock_bufLen (s : State) (B : List Byte) : (s.compressBlock B).bufLen = s.bufLen := rfl
@[simp] theorem State.compressBlock_bitLen (s : State) (B : List Byte) : (s.compressBlock B).bitLen = s.bitLen := rfl
@[simp] theorem State.compressBlock_halted (s : State) (B : List Byte) : (s.compressBlock B).halted = s.halted := rfl
@[simp] theorem State.compressBlock_phase (s : State) (B : List Byte) : (s.compressBlock B).phase = s.phase := rfl
@[simp] theorem State.compressBlock_fault (s : State) (B : List Byte) : (s.compressBlock B).fault = s.fault := rfl
@[simp] theorem State.compressBlock_pending (s : State) (B : List Byte) : (s.compressBlock B).pending = s.pending := rfl
@[simp] theorem State.compressBlock_dataIn (s : State) (B : List Byte) : (s.compressBlock B).dataIn = s.dataIn := rfl
@[simp] theorem State.compressBlock_digestOut (s : State) (B : List Byte) : (s.compressBlock B).digestOut = s.digestOut := rfl
@[simp] theorem State.compressBlock_host (s : State) (B : List Byte) : (s.compressBlock B).host = s.host := rfl
@[simp] theorem State.compressBlock_received (s : State) (B : List Byte) : (s.compressBlock B).received = s.received := rfl
@[simp] theorem State.compressBlock_compressCalls (s : State) (B : List Byte) : (s.compressBlock B).compressCalls = s.compressCalls + 1 := rfl
@[simp] theorem State.compressBlock_draws (s : State) (B : List Byte) : (s.compressBlock B).draws = s.draws := rfl

/-! `State.compressBuffer` -/

@[simp] theorem State.compressBuffer_h (s : State) : (s.compressBuffer).h = compress s.h (s.memRead 0 64) := rfl
@[simp] theorem State.compressBuffer_buf (s : State) : (s.compressBuffer).buf = s.buf := rfl
@[simp] theorem State.compressBuffer_bufLen (s : State) : (s.compressBuffer).bufLen = s.bufLen := rfl
@[simp] theorem State.compressBuffer_bitLen (s : State) : (s.compressBuffer).bitLen = s.bitLen := rfl
@[simp] theorem State.compressBuffer_halted (s : State) : (s.compressBuffer).halted = s.halted := rfl
@[simp] theorem State.compressBuffer_phase (s : State) : (s.compressBuffer).phase = s.phase := rfl
@[simp] theorem State.compressBuffer_fault (s : State) : (s.compressBuffer).fault = s.fault := rfl
@[simp] theorem State.compressBuffer_pending (s : State) : (s.compressBuffer).pending = s.pending := rfl
@[simp] theorem State.compressBuffer_dataIn (s : State) : (s.compressBuffer).dataIn = s.dataIn := rfl
@[simp] theorem State.compressBuffer_digestOut (s : State) : (s.compressBuffer).digestOut = s.digestOut := rfl
@[simp] theorem State.compressBuffer_host (s : State) : (s.compressBuffer).host = s.host := rfl
@[simp] theorem State.compressBuffer_received (s : State) : (s.compressBuffer).received = s.received := rfl
@[simp] theorem State.compressBuffer_compressCalls (s : State) : (s.compressBuffer).compressCalls = s.compressCalls + 1 := rfl
@[simp] theorem State.compressBuffer_draws (s : State) : (s.compressBuffer).draws = s.draws := rfl

/-! `State.recv` -/

@[simp] theorem State.recv_h (s : State) (n : Nat) : (s.recv n).h = s.h := rfl
@[simp] theorem State.recv_buf (s : State) (n : Nat) : (s.recv n).buf = s.buf := rfl
@[simp] theorem State.recv_bufLen (s : State) (n : Nat) : (s.recv n).bufLen = s.bufLen := rfl
@[simp] theorem State.recv_bitLen (s : State) (n : Nat) : (s.recv n).bitLen = s.bitLen := rfl
@[simp] theorem State.recv_halted (s : State) (n : Nat) : (s.recv n).halted = s.halted := rfl
@[simp] theorem State.recv_phase (s : State) (n : Nat) : (s.recv n).phase = s.phase := rfl
@[simp] theorem State.recv_fault (s : State) (n : Nat) : (s.recv n).fault = s.fault := rfl
@[simp] theorem State.recv_pending (s : State) (n : Nat) : (s.recv n).pending = s.pending := rfl
@[simp] theorem State.recv_dataIn (s : State) (n : Nat) : (s.recv n).dataIn = s.dataIn.drop n := rfl
@[simp] theorem State.recv_digestOut (s : State) (n : Nat) : (s.recv n).digestOut = s.digestOut := rfl
@[simp] theorem State.recv_host (s : State) (n : Nat) : (s.recv n).host = s.host := rfl
@[simp] theorem State.recv_received (s : State) (n : Nat) : (s.recv n).received = s.received := rfl
@[simp] theorem State.recv_compressCalls (s : State) (n : Nat) : (s.recv n).compressCalls = s.compressCalls := rfl
@[simp] theorem State.recv_draws (s : State) (n : Nat) : (s.recv n).draws = s.draws := rfl

/-! `State.emit` -/

@[simp] theorem State.emit_h (s : State) (d : List Byte) : (s.emit d).h = s.h := rfl
@[simp] theorem State.emit_buf (s : State) (d : List Byte) : (s.emit d).buf = s.buf := rfl
@[simp] theorem State.emit_bufLen (s : State) (d : List Byte) : (s.emit d).bufLen = s.bufLen := rfl
@[simp] theorem State.emit_bitLen (s : State) (d : List Byte) : (s.emit d).bitLen = s.bitLen := rfl
@[simp] theorem State.emit_halted (s : State) (d : List Byte) : (s.emit d).halted = s.halted := rfl
@[simp] theorem State.emit_phase (s : State) (d : List Byte) : (s.emit d).phase = s.phase := rfl
@[simp] theorem State.emit_fault (s : State) (d : List Byte) : (s.emit d).fault = s.fault := rfl
@[simp] theorem State.emit_pending (s : State) (d : List Byte) : (s.emit d).pending = s.pending := rfl
@[simp] theorem State.emit_dataIn (s : State) (d : List Byte) : (s.emit d).dataIn = s.dataIn := rfl
@[simp] theorem State.emit_digestOut (s : State) (d : List Byte) : (s.emit d).digestOut = s.digestOut ++ d := rfl
@[simp] theorem State.emit_host (s : State) (d : List Byte) : (s.emit d).host = s.host := rfl
@[simp] theorem State.emit_received (s : State) (d : List Byte) : (s.emit d).received = s.received := rfl
@[simp] theorem State.emit_compressCalls (s : State) (d : List Byte) : (s.emit d).compressCalls = s.compressCalls := rfl
@[simp] theorem State.emit_draws (s : State) (d : List Byte) : (s.emit d).draws = s.draws := rfl

/-! `State.raise` -/

@[simp] theorem State.raise_h (s : State) (r : FaultRecord) : (s.raise r).h = s.h := rfl
@[simp] theorem State.raise_buf (s : State) (r : FaultRecord) : (s.raise r).buf = s.buf := rfl
@[simp] theorem State.raise_bufLen (s : State) (r : FaultRecord) : (s.raise r).bufLen = s.bufLen := rfl
@[simp] theorem State.raise_bitLen (s : State) (r : FaultRecord) : (s.raise r).bitLen = s.bitLen := rfl
@[simp] theorem State.raise_halted (s : State) (r : FaultRecord) : (s.raise r).halted = s.halted := rfl
@[simp] theorem State.raise_phase (s : State) (r : FaultRecord) : (s.raise r).phase = s.phase := rfl
@[simp] theorem State.raise_fault (s : State) (r : FaultRecord) : (s.raise r).fault = if s.fault = .none then r else s.fault := rfl
@[simp] theorem State.raise_pending (s : State) (r : FaultRecord) : (s.raise r).pending = s.pending := rfl
@[simp] theorem State.raise_dataIn (s : State) (r : FaultRecord) : (s.raise r).dataIn = s.dataIn := rfl
@[simp] theorem State.raise_digestOut (s : State) (r : FaultRecord) : (s.raise r).digestOut = s.digestOut := rfl
@[simp] theorem State.raise_host (s : State) (r : FaultRecord) : (s.raise r).host = s.host := rfl
@[simp] theorem State.raise_received (s : State) (r : FaultRecord) : (s.raise r).received = s.received := rfl
@[simp] theorem State.raise_compressCalls (s : State) (r : FaultRecord) : (s.raise r).compressCalls = s.compressCalls := rfl
@[simp] theorem State.raise_draws (s : State) (r : FaultRecord) : (s.raise r).draws = s.draws := rfl

/-! `State.abort` -/

@[simp] theorem State.abort_h (s : State) (r : FaultRecord) : (s.abort r).h = s.h := rfl
@[simp] theorem State.abort_buf (s : State) (r : FaultRecord) : (s.abort r).buf = s.buf := rfl
@[simp] theorem State.abort_bufLen (s : State) (r : FaultRecord) : (s.abort r).bufLen = s.bufLen := rfl
@[simp] theorem State.abort_bitLen (s : State) (r : FaultRecord) : (s.abort r).bitLen = s.bitLen := rfl
@[simp] theorem State.abort_halted (s : State) (r : FaultRecord) : (s.abort r).halted = true := rfl
@[simp] theorem State.abort_phase (s : State) (r : FaultRecord) : (s.abort r).phase = s.phase := rfl
@[simp] theorem State.abort_fault (s : State) (r : FaultRecord) : (s.abort r).fault = if s.fault = .none then r else s.fault := rfl
@[simp] theorem State.abort_pending (s : State) (r : FaultRecord) : (s.abort r).pending = s.pending := rfl
@[simp] theorem State.abort_dataIn (s : State) (r : FaultRecord) : (s.abort r).dataIn = s.dataIn := rfl
@[simp] theorem State.abort_digestOut (s : State) (r : FaultRecord) : (s.abort r).digestOut = s.digestOut := rfl
@[simp] theorem State.abort_host (s : State) (r : FaultRecord) : (s.abort r).host = s.host := rfl
@[simp] theorem State.abort_received (s : State) (r : FaultRecord) : (s.abort r).received = s.received := rfl
@[simp] theorem State.abort_compressCalls (s : State) (r : FaultRecord) : (s.abort r).compressCalls = s.compressCalls := rfl
@[simp] theorem State.abort_draws (s : State) (r : FaultRecord) : (s.abort r).draws = s.draws := rfl

/-! `State.powerOnReset` -/

@[simp] theorem State.powerOnReset_h (s : State) : (s.powerOnReset).h = #v[0, 0, 0, 0, 0, 0, 0, 0] := rfl
@[simp] theorem State.powerOnReset_buf (s : State) : (s.powerOnReset).buf = [] := rfl
@[simp] theorem State.powerOnReset_bufLen (s : State) : (s.powerOnReset).bufLen = 0 := rfl
@[simp] theorem State.powerOnReset_bitLen (s : State) : (s.powerOnReset).bitLen = 0 := rfl
@[simp] theorem State.powerOnReset_halted (s : State) : (s.powerOnReset).halted = false := rfl
@[simp] theorem State.powerOnReset_phase (s : State) : (s.powerOnReset).phase = .uninit := rfl
@[simp] theorem State.powerOnReset_fault (s : State) : (s.powerOnReset).fault = .none := rfl
@[simp] theorem State.powerOnReset_pending (s : State) : (s.powerOnReset).pending = none := rfl
@[simp] theorem State.powerOnReset_dataIn (s : State) : (s.powerOnReset).dataIn = [] := rfl
@[simp] theorem State.powerOnReset_digestOut (s : State) : (s.powerOnReset).digestOut = [] := rfl
@[simp] theorem State.powerOnReset_host (s : State) : (s.powerOnReset).host = s.host := rfl
@[simp] theorem State.powerOnReset_received (s : State) : (s.powerOnReset).received = [] := rfl
@[simp] theorem State.powerOnReset_compressCalls (s : State) : (s.powerOnReset).compressCalls = 0 := rfl
@[simp] theorem State.powerOnReset_draws (s : State) : (s.powerOnReset).draws = s.draws := rfl

/-! `State.awaitData` -/

@[simp] theorem State.awaitData_h (s : State) (i : Instr) : (s.awaitData i).h = s.h := rfl
@[simp] theorem State.awaitData_buf (s : State) (i : Instr) : (s.awaitData i).buf = s.buf := rfl
@[simp] theorem State.awaitData_bufLen (s : State) (i : Instr) : (s.awaitData i).bufLen = s.bufLen := rfl
@[simp] theorem State.awaitData_bitLen (s : State) (i : Instr) : (s.awaitData i).bitLen = s.bitLen := rfl
@[simp] theorem State.awaitData_halted (s : State) (i : Instr) : (s.awaitData i).halted = s.halted := rfl
@[simp] theorem State.awaitData_phase (s : State) (i : Instr) : (s.awaitData i).phase = s.phase := rfl
@[simp] theorem State.awaitData_fault (s : State) (i : Instr) : (s.awaitData i).fault = s.fault := rfl
@[simp] theorem State.awaitData_pending (s : State) (i : Instr) : (s.awaitData i).pending = some i := rfl
@[simp] theorem State.awaitData_dataIn (s : State) (i : Instr) : (s.awaitData i).dataIn = s.dataIn := rfl
@[simp] theorem State.awaitData_digestOut (s : State) (i : Instr) : (s.awaitData i).digestOut = s.digestOut := rfl
@[simp] theorem State.awaitData_host (s : State) (i : Instr) : (s.awaitData i).host = s.host := rfl
@[simp] theorem State.awaitData_received (s : State) (i : Instr) : (s.awaitData i).received = s.received := rfl
@[simp] theorem State.awaitData_compressCalls (s : State) (i : Instr) : (s.awaitData i).compressCalls = s.compressCalls := rfl
@[simp] theorem State.awaitData_draws (s : State) (i : Instr) : (s.awaitData i).draws = s.draws := rfl

/-! `State.clearPending` -/

@[simp] theorem State.clearPending_h (s : State) : (s.clearPending).h = s.h := rfl
@[simp] theorem State.clearPending_buf (s : State) : (s.clearPending).buf = s.buf := rfl
@[simp] theorem State.clearPending_bufLen (s : State) : (s.clearPending).bufLen = s.bufLen := rfl
@[simp] theorem State.clearPending_bitLen (s : State) : (s.clearPending).bitLen = s.bitLen := rfl
@[simp] theorem State.clearPending_halted (s : State) : (s.clearPending).halted = s.halted := rfl
@[simp] theorem State.clearPending_phase (s : State) : (s.clearPending).phase = s.phase := rfl
@[simp] theorem State.clearPending_fault (s : State) : (s.clearPending).fault = s.fault := rfl
@[simp] theorem State.clearPending_pending (s : State) : (s.clearPending).pending = none := rfl
@[simp] theorem State.clearPending_dataIn (s : State) : (s.clearPending).dataIn = s.dataIn := rfl
@[simp] theorem State.clearPending_digestOut (s : State) : (s.clearPending).digestOut = s.digestOut := rfl
@[simp] theorem State.clearPending_host (s : State) : (s.clearPending).host = s.host := rfl
@[simp] theorem State.clearPending_received (s : State) : (s.clearPending).received = s.received := rfl
@[simp] theorem State.clearPending_compressCalls (s : State) : (s.clearPending).compressCalls = s.compressCalls := rfl
@[simp] theorem State.clearPending_draws (s : State) : (s.clearPending).draws = s.draws := rfl

/-! `State.setHost` -/

@[simp] theorem State.setHost_h (s : State) (moves : List HostMove) : (s.setHost moves).h = s.h := rfl
@[simp] theorem State.setHost_buf (s : State) (moves : List HostMove) : (s.setHost moves).buf = s.buf := rfl
@[simp] theorem State.setHost_bufLen (s : State) (moves : List HostMove) : (s.setHost moves).bufLen = s.bufLen := rfl
@[simp] theorem State.setHost_bitLen (s : State) (moves : List HostMove) : (s.setHost moves).bitLen = s.bitLen := rfl
@[simp] theorem State.setHost_halted (s : State) (moves : List HostMove) : (s.setHost moves).halted = s.halted := rfl
@[simp] theorem State.setHost_phase (s : State) (moves : List HostMove) : (s.setHost moves).phase = s.phase := rfl
@[simp] theorem State.setHost_fault (s : State) (moves : List HostMove) : (s.setHost moves).fault = s.fault := rfl
@[simp] theorem State.setHost_pending (s : State) (moves : List HostMove) : (s.setHost moves).pending = s.pending := rfl
@[simp] theorem State.setHost_dataIn (s : State) (moves : List HostMove) : (s.setHost moves).dataIn = s.dataIn := rfl
@[simp] theorem State.setHost_digestOut (s : State) (moves : List HostMove) : (s.setHost moves).digestOut = s.digestOut := rfl
@[simp] theorem State.setHost_host (s : State) (moves : List HostMove) : (s.setHost moves).host = moves := rfl
@[simp] theorem State.setHost_received (s : State) (moves : List HostMove) : (s.setHost moves).received = s.received := rfl
@[simp] theorem State.setHost_compressCalls (s : State) (moves : List HostMove) : (s.setHost moves).compressCalls = s.compressCalls := rfl
@[simp] theorem State.setHost_draws (s : State) (moves : List HostMove) : (s.setHost moves).draws = s.draws := rfl

/-! `State.startMessage` -/

@[simp] theorem State.startMessage_h (s : State) : (s.startMessage).h = iv := rfl
@[simp] theorem State.startMessage_buf (s : State) : (s.startMessage).buf = s.buf := rfl
@[simp] theorem State.startMessage_bufLen (s : State) : (s.startMessage).bufLen = 0 := rfl
@[simp] theorem State.startMessage_bitLen (s : State) : (s.startMessage).bitLen = 0 := rfl
@[simp] theorem State.startMessage_halted (s : State) : (s.startMessage).halted = s.halted := rfl
@[simp] theorem State.startMessage_phase (s : State) : (s.startMessage).phase = .initialized := rfl
@[simp] theorem State.startMessage_fault (s : State) : (s.startMessage).fault = s.fault := rfl
@[simp] theorem State.startMessage_pending (s : State) : (s.startMessage).pending = s.pending := rfl
@[simp] theorem State.startMessage_dataIn (s : State) : (s.startMessage).dataIn = s.dataIn := rfl
@[simp] theorem State.startMessage_digestOut (s : State) : (s.startMessage).digestOut = s.digestOut := rfl
@[simp] theorem State.startMessage_host (s : State) : (s.startMessage).host = s.host := rfl
@[simp] theorem State.startMessage_received (s : State) : (s.startMessage).received = s.received := rfl
@[simp] theorem State.startMessage_compressCalls (s : State) : (s.startMessage).compressCalls = s.compressCalls := rfl
@[simp] theorem State.startMessage_draws (s : State) : (s.startMessage).draws = s.draws := rfl

/-! `State.emitDigest` -/

@[simp] theorem State.emitDigest_h (s : State) : (s.emitDigest).h = s.h := rfl
@[simp] theorem State.emitDigest_buf (s : State) : (s.emitDigest).buf = s.buf := rfl
@[simp] theorem State.emitDigest_bufLen (s : State) : (s.emitDigest).bufLen = s.bufLen := rfl
@[simp] theorem State.emitDigest_bitLen (s : State) : (s.emitDigest).bitLen = s.bitLen := rfl
@[simp] theorem State.emitDigest_halted (s : State) : (s.emitDigest).halted = s.halted := rfl
@[simp] theorem State.emitDigest_phase (s : State) : (s.emitDigest).phase = s.phase := rfl
@[simp] theorem State.emitDigest_fault (s : State) : (s.emitDigest).fault = s.fault := rfl
@[simp] theorem State.emitDigest_pending (s : State) : (s.emitDigest).pending = s.pending := rfl
@[simp] theorem State.emitDigest_dataIn (s : State) : (s.emitDigest).dataIn = s.dataIn := rfl
@[simp] theorem State.emitDigest_digestOut (s : State) : (s.emitDigest).digestOut = s.digestOut ++ digestBytes s.h := rfl
@[simp] theorem State.emitDigest_host (s : State) : (s.emitDigest).host = s.host := rfl
@[simp] theorem State.emitDigest_received (s : State) : (s.emitDigest).received = s.received := rfl
@[simp] theorem State.emitDigest_compressCalls (s : State) : (s.emitDigest).compressCalls = s.compressCalls := rfl
@[simp] theorem State.emitDigest_draws (s : State) : (s.emitDigest).draws = s.draws := rfl

/-! `State.consume` -/

@[simp] theorem State.consume_h (s : State) : (s.consume).h = s.h := rfl
@[simp] theorem State.consume_buf (s : State) : (s.consume).buf = s.buf := rfl
@[simp] theorem State.consume_bufLen (s : State) : (s.consume).bufLen = BitVec.ofNat 7 (Config.finalBufLen s.draws).val := rfl
@[simp] theorem State.consume_bitLen (s : State) : (s.consume).bitLen = s.bitLen := rfl
@[simp] theorem State.consume_halted (s : State) : (s.consume).halted = s.halted := rfl
@[simp] theorem State.consume_phase (s : State) : (s.consume).phase = .finalized := rfl
@[simp] theorem State.consume_fault (s : State) : (s.consume).fault = s.fault := rfl
@[simp] theorem State.consume_pending (s : State) : (s.consume).pending = s.pending := rfl
@[simp] theorem State.consume_dataIn (s : State) : (s.consume).dataIn = s.dataIn := rfl
@[simp] theorem State.consume_digestOut (s : State) : (s.consume).digestOut = s.digestOut := rfl
@[simp] theorem State.consume_host (s : State) : (s.consume).host = s.host := rfl
@[simp] theorem State.consume_received (s : State) : (s.consume).received = s.received := rfl
@[simp] theorem State.consume_compressCalls (s : State) : (s.consume).compressCalls = s.compressCalls := rfl
@[simp] theorem State.consume_draws (s : State) : (s.consume).draws = s.draws + 1 := rfl

end Sys2Proof.Machine
end

