-- ==== Sys2Proof/Laws/Memory.lean ====
section
/-! SUPPORT. The buffer space: every operation keeps the canonical form, and what a read gives after a
write (rules R13, R40). -/

namespace Sys2Proof.Machine

theorem Memory.read_of_not_mem (m : Memory) (a : Nat) (h : ∀ c ∈ m, c.1 ≠ a) :
    m.read a = Memory.unlisted := by
  induction m with
  | nil => rfl
  | cons c m ih =>
    obtain ⟨x, v⟩ := c
    have hx : x ≠ a := h (x, v) (by simp)
    simp only [Memory.read, if_neg hx]
    exact ih fun d hd => h d (by simp [hd])

theorem Memory.read_of_mem {m : Memory} (hm : m.Pairwise fun c d => c.1 < d.1) {c : Host.Cell}
    (hc : c ∈ m) : m.read c.1 = c.2 := by
  induction m with
  | nil => cases hc
  | cons d m ih =>
    obtain ⟨x, v⟩ := d
    rcases List.mem_cons.1 hc with rfl | hc
    · simp [Memory.read]
    · have hlt : x < c.1 := (List.pairwise_cons.1 hm).1 c hc
      simp only [Memory.read, if_neg (Nat.ne_of_lt hlt)]
      exact ih (List.pairwise_cons.1 hm).2 hc

theorem Memory.mem_tabulate (f : Nat → Byte) (c : Host.Cell) :
    c ∈ Memory.tabulate f ↔ c.1 < 64 ∧ f c.1 ≠ Memory.unlisted ∧ c.2 = f c.1 := by
  obtain ⟨x, v⟩ := c
  simp only [Memory.tabulate, List.mem_filterMap, List.mem_range]
  constructor
  · rintro ⟨a, ha, h⟩
    split at h
    · cases h
    · next hf => cases h; exact ⟨ha, hf, rfl⟩
  · rintro ⟨hx, hf, hv⟩
    exact ⟨x, hx, by rw [if_neg hf]; simp_all⟩

/-- A tabulated memory is in canonical form. -/
theorem Memory.tabulate_wf (f : Nat → Byte) : (Memory.tabulate f).wf := by
  refine ⟨?_, fun c hc => ?_⟩
  · unfold Memory.tabulate
    rw [List.pairwise_filterMap]
    refine List.pairwise_lt_range.imp ?_
    intro a b hab c hc d hd
    split at hc
    · cases hc
    · split at hd
      · cases hd
      · cases hc; cases hd; exact hab
  · obtain ⟨hlt, hne, hv⟩ := (Memory.mem_tabulate f c).1 hc
    exact ⟨hlt, by rw [hv]; exact hne⟩

/-- Reading a tabulated memory. -/
theorem Memory.read_tabulate (f : Nat → Byte) (a : Nat) :
    (Memory.tabulate f).read a = if a < 64 then f a else Memory.unlisted := by
  by_cases h : a < 64 ∧ f a ≠ Memory.unlisted
  · have := Memory.read_of_mem (Memory.tabulate_wf f).1
      ((Memory.mem_tabulate f (a, f a)).2 ⟨h.1, h.2, rfl⟩)
    simpa [h.1] using this
  · rw [Memory.read_of_not_mem]
    · split
      · next ha => exact (not_not.1 fun hf => h ⟨ha, fun e => hf e.symm⟩)
      · rfl
    · rintro ⟨x, v⟩ hc rfl
      obtain ⟨h1, h2, -⟩ := (Memory.mem_tabulate f _).1 hc
      exact h ⟨h1, h2⟩

/-- The reset memory is in canonical form. -/
theorem Memory.reset_wf : State.reset.buf.wf := by decide

/-- MemWrite keeps the canonical form. -/
theorem Memory.writeBytes_wf (m : Memory) (a : Nat) (d : List Byte) : (m.writeBytes a d).wf :=
  Memory.tabulate_wf _

/-- What an address of the buffer reads after MemWrite. -/
theorem Memory.read_writeBytes (m : Memory) (a : Nat) (d : List Byte) {x : Nat} (hx : x < 64) :
    (m.writeBytes a d).read x = if a ≤ x ∧ x < a + d.length then d.getD (x - a) 0 else m.read x := by
  simp only [Memory.writeBytes, Memory.read_tabulate, if_pos hx]

/-- An address outside the written bytes reads as before. -/
theorem Memory.read_writeBytes_outside (m : Memory) (a : Nat) (d : List Byte) {x : Nat} (hx : x < 64)
    (h : x < a ∨ a + d.length ≤ x) : (m.writeBytes a d).read x = m.read x := by
  rw [Memory.read_writeBytes m a d hx, if_neg (by omega)]

/-- A canonical memory is determined by what its addresses read. -/
theorem Memory.eq_tabulate_read {m : Memory} (hm : m.wf) : m = Memory.tabulate m.read := by
  refine List.Perm.eq_of_pairwise (le := fun c d => c.1 < d.1) ?_ hm.1 (Memory.tabulate_wf _).1 ?_
  · intro c d _ _ h1 h2; omega
  · refine (List.perm_ext_iff_of_nodup ?_ ?_).2 fun c => ?_
    · exact hm.1.imp fun h e => by simp [e] at h
    · exact (Memory.tabulate_wf _).1.imp fun h e => by simp [e] at h
    · rw [Memory.mem_tabulate]
      constructor
      · intro hc
        have hr := Memory.read_of_mem hm.1 hc
        exact ⟨(hm.2 c hc).1, by rw [hr]; exact (hm.2 c hc).2, hr.symm⟩
      · rintro ⟨-, hne, hv⟩
        by_contra hc
        have : ∃ d ∈ m, d.1 = c.1 := by
          by_contra hno
          push Not at hno
          exact hne (Memory.read_of_not_mem m c.1 hno)
        obtain ⟨d, hd, hd1⟩ := this
        have hr := Memory.read_of_mem hm.1 hd
        rw [hd1] at hr
        have : c = d := by
          obtain ⟨c1, c2⟩ := c; obtain ⟨d1, d2⟩ := d
          simp only at hd1 hr hv ⊢
          rw [hv, hr, hd1]
        exact hc (this ▸ hd)

/-- Two canonical memories that read alike at every address of the buffer are equal data. -/
theorem Memory.ext_of_read {m m' : Memory} (hm : m.wf) (hm' : m'.wf)
    (h : ∀ a < 64, m.read a = m'.read a) : m = m' := by
  rw [Memory.eq_tabulate_read hm, Memory.eq_tabulate_read hm']
  unfold Memory.tabulate
  refine List.filterMap_congr fun a ha => ?_
  rw [h a (List.mem_range.1 ha)]

/-! MemRead. -/

@[simp] theorem Memory.readBytes_length (m : Memory) (a n : Nat) : (m.readBytes a n).length = n := by
  simp [Memory.readBytes]

@[simp] theorem State.memRead_length (s : State) (a n : Nat) : (s.memRead a n).length = n :=
  Memory.readBytes_length _ _ _

/-- MemRead(a, n + k) is MemRead(a, n) followed by MemRead(a + n, k). -/
theorem Memory.readBytes_append (m : Memory) (a n k : Nat) :
    m.readBytes a (n + k) = m.readBytes a n ++ m.readBytes (a + n) k := by
  simp only [Memory.readBytes, List.range_add, List.map_append, List.map_map]
  congr 1
  refine List.map_congr_left fun i _ => ?_
  simp [Nat.add_assoc]

/-- MemRead depends on the bytes it reads alone. -/
theorem Memory.readBytes_congr {m m' : Memory} {a n : Nat}
    (h : ∀ x, a ≤ x → x < a + n → m.read x = m'.read x) : m.readBytes a n = m'.readBytes a n := by
  refine List.map_congr_left fun i hi => h _ (by omega) ?_
  have := List.mem_range.1 hi
  omega

/-- MemRead where it meets a MemWrite exactly. -/
theorem Memory.readBytes_writeBytes (m : Memory) (a : Nat) (d : List Byte) (h : a + d.length ≤ 64) :
    (m.writeBytes a d).readBytes a d.length = d := by
  refine List.ext_getElem (by simp) fun i h1 h2 => ?_
  simp only [Memory.readBytes, List.getElem_map, List.getElem_range]
  rw [Memory.read_writeBytes _ _ _ (by omega), if_pos (by omega)]
  simp [h2]

/-- MemRead apart from a MemWrite. -/
theorem Memory.readBytes_writeBytes_apart (m : Memory) (a : Nat) (d : List Byte) {b n : Nat}
    (hb : b + n ≤ 64) (h : b + n ≤ a ∨ a + d.length ≤ b) :
    (m.writeBytes a d).readBytes b n = m.readBytes b n :=
  Memory.readBytes_congr fun _ h1 h2 => Memory.read_writeBytes_outside _ _ _ (by omega) (by omega)

/-- MemRead from 0 over a MemWrite that starts inside: the old bytes below, then the new ones. -/
theorem Memory.readBytes_zero_writeBytes (m : Memory) (a : Nat) (d : List Byte)
    (h : a + d.length ≤ 64) :
    (m.writeBytes a d).readBytes 0 (a + d.length) = m.readBytes 0 a ++ d := by
  rw [Memory.readBytes_append, Memory.readBytes_writeBytes_apart _ _ _ (by omega) (by omega),
    Nat.zero_add, Memory.readBytes_writeBytes _ _ _ h]

end Sys2Proof.Machine
end

