-- ==== Sys2Proof/Laws/Update.lean ====
section
/-! SUPPORT. Everything the absorbing steps of UPDATE do (rules R93 to R96), said once, in the closed
form of rule R99. -/

namespace Sys2Proof.Machine

@[simp] theorem setBufLen_toNat (s : State) {n : Nat} (h : n < 128) : (s.setBufLen n).bufLen.toNat = n := by
  rw [State.setBufLen_bufLen, BitVec.toNat_ofNat, Nat.mod_eq_of_lt h]

/-- What an operation that hashes data leaves alone: everything but H, BUF, BUF_LEN and the count of
COMPRESS calls. -/
structure SameBesidesHash (s t : State) : Prop where
  bitLen : t.bitLen = s.bitLen
  halted : t.halted = s.halted
  phase : t.phase = s.phase
  fault : t.fault = s.fault
  pending : t.pending = s.pending
  dataIn : t.dataIn = s.dataIn
  digestOut : t.digestOut = s.digestOut
  host : t.host = s.host
  received : t.received = s.received
  draws : t.draws = s.draws

theorem SameBesidesHash.trans {s t u : State} (h : SameBesidesHash s t) (h' : SameBesidesHash t u) :
    SameBesidesHash s u :=
  ⟨h'.1.trans h.1, h'.2.trans h.2, h'.3.trans h.3, h'.4.trans h.4, h'.5.trans h.5, h'.6.trans h.6,
    h'.7.trans h.7, h'.8.trans h.8, h'.9.trans h.9, h'.10.trans h.10⟩

theorem memWrite_same (s : State) (a : Nat) (d : List Byte) : SameBesidesHash s (s.memWrite a d) := by
  constructor <;> simp

theorem setBufLen_same (s : State) (n : Nat) : SameBesidesHash s (s.setBufLen n) := by
  constructor <;> simp

theorem compressBlock_same (s : State) (B : List Byte) : SameBesidesHash s (s.compressBlock B) := by
  constructor <;> simp

theorem compressBuffer_same (s : State) : SameBesidesHash s s.compressBuffer := by
  constructor <;> simp

/-- Step 3: `k` windows are `k` COMPRESS calls on the first `k` blocks, and nothing else changes. -/
theorem absorbWindows_spec (k : Nat) (d : List Byte) (s : State) :
    SameBesidesHash s (s.absorbWindows k d) ∧ (s.absorbWindows k d).buf = s.buf ∧
      (s.absorbWindows k d).bufLen = s.bufLen ∧
      (s.absorbWindows k d).h = (blocksOf k d).foldl compress s.h ∧
      (s.absorbWindows k d).compressCalls = s.compressCalls + k := by
  induction k generalizing d s with
  | zero => exact ⟨by constructor <;> rfl, rfl, rfl, rfl, rfl⟩
  | succ k ih =>
    obtain ⟨h1, h2, h3, h4, h5⟩ := ih (d.drop 64) (s.compressBlock (d.take 64))
    rw [State.absorbWindows]
    refine ⟨(compressBlock_same s _).trans h1, by rw [h2]; simp, by rw [h3]; simp, ?_, ?_⟩
    · rw [h4, State.compressBlock_h, blocksOf, List.foldl_cons]
    · rw [h5, State.compressBlock_compressCalls]; omega

/-- Steps 3 and 4 on the data `d` (R95, R96). -/
theorem absorbRest_spec (d : List Byte) (s : State) :
    SameBesidesHash s (s.absorbRest d) ∧ (s.absorbRest d).h = hashBlocks s.h d ∧
      (s.absorbRest d).compressCalls = s.compressCalls + d.length / 64 ∧
      (s.absorbRest d).bufLen.toNat = d.length % 64 ∧
      (s.absorbRest d).buf = s.buf.writeBytes 0 (d.drop (64 * (d.length / 64))) := by
  obtain ⟨h1, h2, h3, h4, h5⟩ := absorbWindows_spec (d.length / 64) d s
  have hlen : (d.drop (64 * (d.length / 64))).length = d.length % 64 := by
    rw [List.length_drop]; omega
  unfold State.absorbRest State.absorbTail
  refine ⟨(h1.trans (memWrite_same _ _ _)).trans (setBufLen_same _ _), ?_, ?_, ?_, ?_⟩
  · simpa [hashBlocks] using h4
  · simpa using h5
  · rw [hlen, setBufLen_toNat _ (by omega)]
  · simp [h2]

/-- Steps 2 to 4 in closed form (R99): with X = BUF[0..b−1] ‖ D, the ⌊|X|/64⌋ blocks of X are
compressed in order, and the rest of X is what BUF[0..BUF_LEN−1] holds. -/
theorem absorb_spec (d : List Byte) (s : State) (hb : s.bufLen.toNat ≤ 63) :
    SameBesidesHash s (s.absorb d) ∧
      (s.absorb d).h = hashBlocks s.h (s.memRead 0 s.bufLen.toNat ++ d) ∧
      (s.absorb d).compressCalls = s.compressCalls + (s.bufLen.toNat + d.length) / 64 ∧
      (s.absorb d).bufLen.toNat = (s.bufLen.toNat + d.length) % 64 ∧
      (s.absorb d).memRead 0 ((s.bufLen.toNat + d.length) % 64) =
        (s.memRead 0 s.bufLen.toNat ++ d).drop (64 * ((s.bufLen.toNat + d.length) / 64)) ∧
      (s.absorb d).buf.wf ∧
      ∀ a < 64,
        (s.bufLen.toNat + d.length < 64 ∧ (a < s.bufLen.toNat ∨ s.bufLen.toNat + d.length ≤ a) ∨
          64 ≤ s.bufLen.toNat + d.length ∧ (s.bufLen.toNat + d.length) % 64 ≤ a ∧
            (a < s.bufLen.toNat ∨ s.bufLen.toNat = 0)) →
        (s.absorb d).buf.read a = s.buf.read a := by
  generalize hbe : s.bufLen.toNat = b at *
  have hX : (s.memRead 0 b ++ d).length = b + d.length := by simp
  by_cases h0 : b = 0
  · -- step 2 is skipped
    subst h0
    have hu : s.absorb d = s.absorbRest d := by simp [State.absorb, hbe]
    obtain ⟨h1, h2, h3, h4, h5⟩ := absorbRest_spec d s
    have hnil : s.memRead 0 0 = [] := rfl
    have hlen : (d.drop (64 * (d.length / 64))).length = d.length % 64 := by
      rw [List.length_drop]; omega
    rw [hu]
    simp only [hnil, List.nil_append, Nat.zero_add]
    refine ⟨h1, h2, h3, h4, ?_, by rw [h5]; exact Memory.writeBytes_wf _ _ _, ?_⟩
    · have := Memory.readBytes_writeBytes s.buf 0 (d.drop (64 * (d.length / 64))) (by omega)
      rw [hlen] at this
      rw [State.memRead, h5, this]
    · intro a ha hc
      rw [h5]
      exact Memory.read_writeBytes_outside _ _ _ ha (by omega)
  · by_cases hn : d.length < 64 - b
    · -- the block stays partial
      have hu : s.absorb d = (s.memWrite b d).setBufLen (b + d.length) := by
        simp [State.absorb, hbe, h0, hn]
      have hmod : (b + d.length) % 64 = b + d.length := Nat.mod_eq_of_lt (by omega)
      have hdiv : (b + d.length) / 64 = 0 := Nat.div_eq_of_lt (by omega)
      rw [hu, hmod, hdiv]
      refine ⟨(memWrite_same _ _ _).trans (setBufLen_same _ _), ?_, by simp, ?_, ?_, ?_, ?_⟩
      · rw [hashBlocks_short _ (by omega)]; simp
      · rw [setBufLen_toNat _ (by omega)]
      · simp only [State.memRead, State.setBufLen_buf, State.memWrite_buf, Nat.mul_zero, List.drop_zero]
        exact Memory.readBytes_zero_writeBytes _ _ _ (by omega)
      · simpa using Memory.writeBytes_wf _ _ _
      · intro a ha hc
        simpa using Memory.read_writeBytes_outside s.buf b d ha (by omega)
    · -- the block completes
      have hu : s.absorb d = (((s.memWrite b (d.take (64 - b))).compressBuffer).setBufLen 0).absorbRest
          (d.drop (64 - b)) := by
        simp [State.absorb, hbe, h0, hn]
      have htake : (d.take (64 - b)).length = 64 - b := by rw [List.length_take]; omega
      have hfull : (s.memWrite b (d.take (64 - b))).memRead 0 64 = s.memRead 0 b ++ d.take (64 - b) := by
        have := Memory.readBytes_zero_writeBytes s.buf b (d.take (64 - b)) (by omega)
        rw [htake, show b + (64 - b) = 64 by omega] at this
        simpa [State.memRead] using this
      obtain ⟨h1, h2, h3, h4, h5⟩ := absorbRest_spec (d.drop (64 - b))
        (((s.memWrite b (d.take (64 - b))).compressBuffer).setBufLen 0)
      have hlen : (d.drop (64 - b)).length = d.length - (64 - b) := List.length_drop
      have hdiv : (b + d.length) / 64 = 1 + (d.length - (64 - b)) / 64 := by omega
      have hmod : (d.length - (64 - b)) % 64 = (b + d.length) % 64 := by omega
      have hsplit : s.memRead 0 b ++ d = (s.memRead 0 b ++ d.take (64 - b)) ++ d.drop (64 - b) := by
        rw [List.append_assoc, List.take_append_drop]
      have hfl : (s.memRead 0 b ++ d.take (64 - b)).length = 64 := by
        rw [List.length_append, htake, State.memRead_length]; omega
      have htail : (s.memRead 0 b ++ d).drop (64 * ((b + d.length) / 64)) =
          (d.drop (64 - b)).drop (64 * ((d.drop (64 - b)).length / 64)) := by
        rw [hsplit, hdiv, Nat.mul_add, List.drop_append, hfl, hlen,
          List.drop_eq_nil_of_le (by omega), List.nil_append, Nat.mul_one, Nat.add_sub_cancel_left]
      rw [hu]
      refine ⟨(((memWrite_same _ _ _).trans (compressBuffer_same _)).trans (setBufLen_same _ _)).trans h1,
        ?_, ?_, ?_, ?_, by rw [h5]; exact Memory.writeBytes_wf _ _ _, ?_⟩
      · rw [h2, hsplit, hashBlocks_append _ _ _ (by omega), hashBlocks_block _ hfl]
        simp only [State.setBufLen_h, State.compressBuffer_h, State.memWrite_h, hfull]
      · rw [h3, hdiv, hlen]; simp; omega
      · rw [h4, hlen, hmod]
      · rw [htail, State.memRead, h5]
        have := Memory.readBytes_writeBytes (((s.memWrite b (d.take (64 - b))).compressBuffer).setBufLen 0).buf
          0 ((d.drop (64 - b)).drop (64 * ((d.drop (64 - b)).length / 64)))
          (by rw [List.length_drop]; omega)
        rw [List.length_drop (i := 64 * ((d.drop (64 - b)).length / 64)), hlen,
          show d.length - (64 - b) - 64 * ((d.length - (64 - b)) / 64) = (b + d.length) % 64 by omega] at this
        rw [hlen]
        exact this
      · intro a ha hc
        rw [h5, Memory.read_writeBytes_outside _ _ _ ha
          (by rw [List.length_drop (i := 64 * ((d.drop (64 - b)).length / 64)), hlen]; omega)]
        simp only [State.setBufLen_buf, State.compressBuffer_buf, State.memWrite_buf]
        exact Memory.read_writeBytes_outside _ _ _ ha (by omega)

end Sys2Proof.Machine
end

