-- ==== Sys2Proof/Laws/Final.lean ====
section
/-! SUPPORT. Everything the finishing steps of FINAL do (rules R104 to R111), said once. -/

namespace Sys2Proof.Machine

@[simp] theorem be64bytes_length (v : BitVec 64) : (be64bytes v).length = 8 := rfl

theorem be32bytes_length (w : Word) : (be32bytes w).length = 4 := rfl

/-- A digest has 32 bytes (R46). -/
theorem digestBytes_length (H : HashState) : (digestBytes H).length = 32 := by
  have h : H.toList.length = 8 := Vector.length_toList
  rw [digestBytes, List.length_flatMap, List.map_congr_left fun w _ => be32bytes_length w,
    List.map_const', List.sum_replicate, h]
  rfl

theorem padZeros_low {b : Nat} (h : b ≤ 55) : padZeros b = 55 - b := by unfold padZeros; omega

theorem padZeros_high {b : Nat} (h : 56 ≤ b) (h' : b ≤ 63) : padZeros b = 119 - b := by
  unfold padZeros; omega

/-- The padding depends on the length of the tail alone. -/
theorem padZeros_mod (n : Nat) : padZeros (n % 64) = padZeros n := by unfold padZeros; omega

/-- The draw of R111 lies in 0..64. -/
theorem consume_bufLen_le (s : State) : s.consume.bufLen.toNat ≤ 64 := by
  have := (Config.finalBufLen s.draws).isLt
  rw [State.consume_bufLen, BitVec.toNat_ofNat, Nat.mod_eq_of_lt (by omega)]
  omega

/-- FINAL up to the length field, before the last COMPRESS (steps 1 to 4). -/
def finalBlock (s : State) : State := s.appendMarker.extraBlock.zeroFill.writeLength s.bitLen

theorem finalBlock_low (s : State) (hb : s.bufLen.toNat ≤ 55) :
    SameBesidesHash s (finalBlock s) ∧ (finalBlock s).h = s.h ∧
      (finalBlock s).compressCalls = s.compressCalls ∧
      (finalBlock s).memRead 0 64 =
        s.memRead 0 s.bufLen.toNat ++ padding s.bufLen.toNat s.bitLen := by
  generalize hbe : s.bufLen.toNat = b at *
  have hm : (s.memWrite b [0x80]).setBufLen (b + 1) = s.appendMarker := by
    simp [State.appendMarker, hbe]
  have hl : s.appendMarker.bufLen.toNat = b + 1 := by rw [← hm, setBufLen_toNat _ (by omega)]
  have hx : s.appendMarker.extraBlock = s.appendMarker := by
    unfold State.extraBlock; rw [hl, if_neg (by omega)]
  have hu : finalBlock s = (((s.memWrite b [0x80]).setBufLen (b + 1)).memWrite (b + 1)
      (List.replicate (56 - (b + 1)) 0x00)).memWrite 56 (be64bytes s.bitLen) := by
    unfold finalBlock State.zeroFill State.writeLength
    rw [hx, hl, hm]
  have h1 := Memory.readBytes_zero_writeBytes s.buf b [0x80] (by simp; omega)
  have h2 := Memory.readBytes_zero_writeBytes (s.buf.writeBytes b [0x80]) (b + 1)
    (List.replicate (56 - (b + 1)) 0x00) (by simp; omega)
  have h3 := Memory.readBytes_zero_writeBytes ((s.buf.writeBytes b [0x80]).writeBytes (b + 1)
    (List.replicate (56 - (b + 1)) 0x00)) 56 (be64bytes s.bitLen) (by simp)
  rw [List.length_replicate, show b + 1 + (56 - (b + 1)) = 56 by omega] at h2
  rw [be64bytes_length, h2, show ([0x80] : List Byte).length = 1 from rfl] at *
  rw [hu]
  refine ⟨(((memWrite_same _ _ _).trans (setBufLen_same _ _)).trans (memWrite_same _ _ _)).trans
    (memWrite_same _ _ _), by simp, by simp, ?_⟩
  simp only [State.memRead, State.memWrite_buf, State.setBufLen_buf]
  rw [h3, h1, padding, padZeros_low hb, show 56 - (b + 1) = 55 - b by omega]
  simp

theorem finalBlock_high (s : State) (hb : 56 ≤ s.bufLen.toNat) (hb' : s.bufLen.toNat ≤ 63) :
    SameBesidesHash s (finalBlock s) ∧
      (finalBlock s).h =
        compress s.h (s.memRead 0 s.bufLen.toNat ++ [0x80] ++
          List.replicate (63 - s.bufLen.toNat) 0x00) ∧
      (finalBlock s).compressCalls = s.compressCalls + 1 ∧
      (finalBlock s).memRead 0 64 = List.replicate 56 0x00 ++ be64bytes s.bitLen := by
  generalize hbe : s.bufLen.toNat = b at *
  have hm : (s.memWrite b [0x80]).setBufLen (b + 1) = s.appendMarker := by
    simp [State.appendMarker, hbe]
  have hl : s.appendMarker.bufLen.toNat = b + 1 := by rw [← hm, setBufLen_toNat _ (by omega)]
  have hx : s.appendMarker.extraBlock =
      ((s.appendMarker.memWrite (b + 1) (List.replicate (63 - b) 0x00)).compressBuffer).setBufLen 0 := by
    unfold State.extraBlock
    rw [hl, if_pos (by omega), show 64 - (b + 1) = 63 - b by omega]
  have h1 := Memory.readBytes_zero_writeBytes s.buf b [0x80] (by simp; omega)
  have h2 := Memory.readBytes_zero_writeBytes (s.buf.writeBytes b [0x80]) (b + 1)
    (List.replicate (63 - b) 0x00) (by simp; omega)
  rw [List.length_replicate, show b + 1 + (63 - b) = 64 by omega,
    show b + 1 = b + ([0x80] : List Byte).length from rfl, h1] at h2
  generalize hy : s.appendMarker.extraBlock = y at *
  have hy0 : y.bufLen.toNat = 0 := by rw [hx, setBufLen_toNat _ (by omega)]
  have hu : finalBlock s = (y.memWrite 0 (List.replicate 56 0x00)).memWrite 56 (be64bytes s.bitLen) := by
    unfold finalBlock State.zeroFill State.writeLength
    rw [hy, hy0]
  have h3 := Memory.readBytes_zero_writeBytes y.buf 0 (List.replicate 56 (0x00 : Byte)) (by simp)
  have h4 := Memory.readBytes_zero_writeBytes (y.buf.writeBytes 0 (List.replicate 56 (0x00 : Byte))) 56
    (be64bytes s.bitLen) (by simp)
  rw [List.length_replicate, Nat.zero_add] at h3
  rw [be64bytes_length, h3] at h4
  have hys : SameBesidesHash s y := by
    rw [hx, ← hm]
    exact ((((memWrite_same _ _ _).trans (setBufLen_same _ _)).trans (memWrite_same _ _ _)).trans
      (compressBuffer_same _)).trans (setBufLen_same _ _)
  rw [hu]
  refine ⟨(hys.trans (memWrite_same _ _ _)).trans (memWrite_same _ _ _), ?_, ?_, ?_⟩
  · simp only [State.memWrite_h, hx, State.setBufLen_h, State.compressBuffer_h, ← hm]
    congr 1
  · simp [hx, ← hm]
  · simp only [State.memRead, State.memWrite_buf]
    rw [h4]
    simp [Memory.readBytes]

/-- FINAL in closed form: with b = BUF_LEN on entry, H becomes COMPRESS applied to the one or two blocks
of BUF[0..b−1] ‖ 0x80 ‖ zeros ‖ be64bytes(BIT_LEN), the digest of H goes out, and BUF holds the last
block (R104 to R111). -/
theorem finalize_spec (s : State) (hb : s.bufLen.toNat ≤ 63) :
    let P := s.memRead 0 s.bufLen.toNat ++ padding s.bufLen.toNat s.bitLen
    s.finalize.h = hashBlocks s.h P ∧
      s.finalize.digestOut = s.digestOut ++ digestBytes s.finalize.h ∧
      s.finalize.compressCalls = s.compressCalls + (if 56 ≤ s.bufLen.toNat then 2 else 1) ∧
      s.finalize.memRead 0 64 = P.drop (P.length - 64) ∧
      s.finalize.buf.wf ∧
      s.finalize.bufLen = BitVec.ofNat 7 (Config.finalBufLen s.draws).val ∧
      s.finalize.bufLen.toNat ≤ 64 ∧
      s.finalize.draws = s.draws + 1 ∧
      s.finalize.phase = .finalized ∧
      s.finalize.bitLen = s.bitLen ∧ s.finalize.halted = s.halted ∧ s.finalize.fault = s.fault ∧
      s.finalize.pending = s.pending ∧ s.finalize.dataIn = s.dataIn ∧ s.finalize.host = s.host ∧
      s.finalize.received = s.received := by
  intro P
  have hu : s.finalize = (((finalBlock s).compressBuffer).emitDigest).consume := rfl
  have hwf : (finalBlock s).buf.wf := by
    unfold finalBlock State.writeLength
    exact Memory.writeBytes_wf _ _ _
  have key : SameBesidesHash s (finalBlock s) ∧
      compress (finalBlock s).h ((finalBlock s).memRead 0 64) = hashBlocks s.h P ∧
      (finalBlock s).compressCalls + 1 = s.compressCalls + (if 56 ≤ s.bufLen.toNat then 2 else 1) ∧
      (finalBlock s).memRead 0 64 = P.drop (P.length - 64) := by
    by_cases h : s.bufLen.toNat ≤ 55
    · obtain ⟨h1, h2, h3, h4⟩ := finalBlock_low s h
      have hlen : P.length = 64 := by
        simp [P, padding, padZeros_low h]; omega
      refine ⟨h1, ?_, ?_, ?_⟩
      · rw [h2, h4, hashBlocks_block _ hlen]
      · rw [h3, if_neg (by omega)]
      · rw [h4, hlen, Nat.sub_self, List.drop_zero]
    · obtain ⟨h1, h2, h3, h4⟩ := finalBlock_high s (by omega) hb
      have hsplit : P = (s.memRead 0 s.bufLen.toNat ++ [0x80] ++
          List.replicate (63 - s.bufLen.toNat) 0x00) ++
          (List.replicate 56 0x00 ++ be64bytes s.bitLen) := by
        have : List.replicate (119 - s.bufLen.toNat) (0x00 : Byte) =
            List.replicate (63 - s.bufLen.toNat) 0x00 ++ List.replicate 56 0x00 := by
          rw [List.replicate_append_replicate]; congr 1; omega
        simp only [P, padding, padZeros_high (show 56 ≤ s.bufLen.toNat by omega) hb, this,
          List.append_assoc]
      have hl1 : (s.memRead 0 s.bufLen.toNat ++ [0x80] ++
          List.replicate (63 - s.bufLen.toNat) (0x00 : Byte)).length = 64 := by
        simp; omega
      have hl2 : (List.replicate 56 (0x00 : Byte) ++ be64bytes s.bitLen).length = 64 := by simp
      refine ⟨h1, ?_, ?_, ?_⟩
      · rw [h2, h4, hsplit, hashBlocks_append _ _ _ (by omega), hashBlocks_block _ hl1,
          hashBlocks_block _ hl2]
      · rw [h3, if_pos (by omega)]
      · rw [h4, hsplit, List.length_append, hl1, hl2, List.drop_append, hl1,
          List.drop_eq_nil_of_le (by omega)]
        simp
  obtain ⟨hs, k1, k2, k3⟩ := key
  have hh : s.finalize.h = hashBlocks s.h P := by rw [hu]; simpa using k1
  refine ⟨hh, ?_, ?_, ?_, ?_, ?_, ?_, ?_, rfl, ?_, ?_, ?_, ?_, ?_, ?_, ?_⟩
  · rw [hh, hu]; simp [k1, hs.digestOut]
  · rw [hu]; simpa using k2
  · rw [hu]
    simp only [State.memRead, State.consume_buf, State.emitDigest_buf, State.compressBuffer_buf]
    exact k3
  · rw [hu]; simpa using hwf
  · rw [hu]; simp [hs.draws]
  · rw [hu]; exact consume_bufLen_le _
  · rw [hu]; simp [hs.draws]
  all_goals rw [hu]
  all_goals simp [hs.1, hs.2, hs.4, hs.5, hs.6, hs.8, hs.9]

end Sys2Proof.Machine
end

