-- ==== Sys2Proof/Laws/Exec.lean ====
section
/-! SUPPORT. What each command can answer, said once (rules R87, R91, R103, R118, R125). -/

namespace Sys2Proof.Machine

/-- A running engine takes the command. -/
theorem taken_running {s : State} (h : s.running) (k : State → Host.Outcome State Fault Refusal) :
    s.taken k = k s := by
  unfold State.taken
  rw [h.1, h.2]
  simp

/-- A halted engine takes nothing (R126). -/
theorem taken_halted {s : State} (h : s.halted = true) (k : State → Host.Outcome State Fault Refusal) :
    s.taken k = .fault .halted := by
  unfold State.taken
  rw [if_pos h]

/-- A state with a recorded fault takes no further step (R25). -/
theorem taken_faulted {s : State} (h : s.halted = false) (hf : s.fault ≠ .none)
    (k : State → Host.Outcome State Fault Refusal) : s.taken k = .fault (.faulted s.fault) := by
  unfold State.taken
  rw [if_neg (by simp [h]), if_pos hf]

/-- Only a running engine reaches a next state or a refusal. -/
theorem taken_cases (s : State) (k : State → Host.Outcome State Fault Refusal) :
    (s.running ∧ s.taken k = k s) ∨
      (s.halted = true ∧ s.taken k = .fault .halted) ∨
      (s.halted = false ∧ s.fault ≠ .none ∧ s.taken k = .fault (.faulted s.fault)) := by
  by_cases h : s.halted = true
  · exact .inr (.inl ⟨h, taken_halted h k⟩)
  · have h : s.halted = false := by simpa using h
    by_cases hf : s.fault = .none
    · exact .inl ⟨⟨h, hf⟩, taken_running ⟨h, hf⟩ k⟩
    · exact .inr (.inr ⟨h, hf, taken_faulted h hf k⟩)

theorem taken_next {s t : State} {k : State → Host.Outcome State Fault Refusal}
    (h : s.taken k = .next t) : s.running ∧ k s = .next t := by
  rcases taken_cases s k with ⟨hr, he⟩ | ⟨-, he⟩ | ⟨-, -, he⟩
  · exact ⟨hr, he ▸ h⟩
  · rw [he] at h; cases h
  · rw [he] at h; cases h

/-- INIT answers a next state in one way. -/
theorem execInit_next {s t : State} (h : exec .init s = .next t) : s.running ∧ t = s.startMessage := by
  simp only [exec, execInit] at h
  obtain ⟨hr, he⟩ := taken_next h
  cases he
  exact ⟨hr, rfl⟩

/-- Everything UPDATE can answer as a next state: a fault taken, the abort taken, the wait for data, or
its effect. -/
theorem execUpdate_next {n : Nat} {s t : State} (h : exec (.update n) s = .next t) :
    s.running ∧
      ((s.phase.isOpen = false ∧ t = s.raise (.contractViolation s.phase (.update n))) ∨
        (s.phase.isOpen = true ∧ 63 < s.bufLen.toNat ∧ t = s.abort (.invariantAbort s.bufLen)) ∨
        (s.phase.isOpen = true ∧ s.bufLen.toNat ≤ 63 ∧ 2 ^ 64 ≤ s.bitLen.toNat + 8 * n ∧
          t = s.raise (.lengthOverflow s.bitLen n)) ∨
        (s.phase.isOpen = true ∧ s.bufLen.toNat ≤ 63 ∧ s.bitLen.toNat + 8 * n < 2 ^ 64 ∧
          s.dataIn.length < n ∧ t = s.awaitData (.update n)) ∨
        (s.phase.isOpen = true ∧ s.bufLen.toNat ≤ 63 ∧ s.bitLen.toNat + 8 * n < 2 ^ 64 ∧
          n ≤ s.dataIn.length ∧ t = s.update n)) := by
  simp only [exec, execUpdate] at h
  obtain ⟨hr, he⟩ := taken_next h
  refine ⟨hr, ?_⟩
  split at he
  · next h1 => cases he; exact .inl ⟨by simpa using h1, rfl⟩
  next h1 =>
  have h1 : s.phase.isOpen = true := by simpa using h1
  split at he
  · next h2 => cases he; exact .inr (.inl ⟨h1, by simpa [State.indexCorrupt] using h2, rfl⟩)
  next h2 =>
  have h2 : s.bufLen.toNat ≤ 63 := by simpa [State.indexCorrupt] using h2
  split at he
  · next h3 => cases he; exact .inr (.inr (.inl ⟨h1, h2, by simpa [State.lengthOverflows] using h3, rfl⟩))
  next h3 =>
  have h3 : s.bitLen.toNat + 8 * n < 2 ^ 64 := by simpa [State.lengthOverflows] using h3
  split at he
  · next h4 => cases he; exact .inr (.inr (.inr (.inl ⟨h1, h2, h3, by simpa [State.hasData] using h4, rfl⟩)))
  · next h4 => cases he; exact .inr (.inr (.inr (.inr ⟨h1, h2, h3, by simpa [State.hasData] using h4, rfl⟩)))

/-- Everything FINAL can answer as a next state. -/
theorem execFinal_next {s t : State} (h : exec .final s = .next t) :
    s.running ∧
      ((s.phase.isOpen = false ∧ t = s.raise (.contractViolation s.phase .final)) ∨
        (s.phase.isOpen = true ∧ 63 < s.bufLen.toNat ∧ t = s.abort (.invariantAbort s.bufLen)) ∨
        (s.phase.isOpen = true ∧ s.bufLen.toNat ≤ 63 ∧ t = s.finalize)) := by
  simp only [exec, execFinal] at h
  obtain ⟨hr, he⟩ := taken_next h
  refine ⟨hr, ?_⟩
  split at he
  · next h1 => cases he; exact .inl ⟨by simpa using h1, rfl⟩
  next h1 =>
  have h1 : s.phase.isOpen = true := by simpa using h1
  split at he
  · next h2 => cases he; exact .inr (.inl ⟨h1, by simpa [State.indexCorrupt] using h2, rfl⟩)
  · next h2 => cases he; exact .inr (.inr ⟨h1, by simpa [State.indexCorrupt] using h2, rfl⟩)

/-- A command whose checks pass and whose data is there takes effect (R115). -/
theorem execUpdate_effect {n : Nat} {s : State} (hr : s.running) (h1 : s.phase.isOpen = true)
    (h2 : s.bufLen.toNat ≤ 63) (h3 : s.bitLen.toNat + 8 * n < 2 ^ 64) (h4 : n ≤ s.dataIn.length) :
    exec (.update n) s = .next (s.update n) := by
  simp only [exec, execUpdate]
  rw [taken_running hr]
  have h3' : s.lengthOverflows n = false := by simp only [State.lengthOverflows, decide_eq_false_iff_not]; omega
  simp [h1, State.indexCorrupt, h3', State.hasData, h4, Nat.not_lt.2 h2]

theorem execFinal_effect {s : State} (hr : s.running) (h1 : s.phase.isOpen = true)
    (h2 : s.bufLen.toNat ≤ 63) : exec .final s = .next s.finalize := by
  simp only [exec, execFinal]
  rw [taken_running hr]
  simp [h1, State.indexCorrupt, Nat.not_lt.2 h2]

/-- The effect of UPDATE in closed form (R92, R97, R99). -/
theorem update_spec (n : Nat) (s : State) (hb : s.bufLen.toNat ≤ 63)
    (hl : s.bitLen.toNat + 8 * n < 2 ^ 64) (hn : n ≤ s.dataIn.length) :
    let X := s.memRead 0 s.bufLen.toNat ++ s.dataIn.take n
    (s.update n).h = hashBlocks s.h X ∧
      (s.update n).compressCalls = s.compressCalls + (s.bufLen.toNat + n) / 64 ∧
      (s.update n).bufLen.toNat = (s.bufLen.toNat + n) % 64 ∧
      (s.update n).memRead 0 ((s.bufLen.toNat + n) % 64) =
        X.drop (64 * ((s.bufLen.toNat + n) / 64)) ∧
      (s.update n).buf.wf ∧
      (∀ a < 64,
        (s.bufLen.toNat + n < 64 ∧ (a < s.bufLen.toNat ∨ s.bufLen.toNat + n ≤ a) ∨
          64 ≤ s.bufLen.toNat + n ∧ (s.bufLen.toNat + n) % 64 ≤ a ∧
            (a < s.bufLen.toNat ∨ s.bufLen.toNat = 0)) →
        (s.update n).buf.read a = s.buf.read a) ∧
      (s.update n).bitLen.toNat = s.bitLen.toNat + 8 * n ∧
      (s.update n).phase = .accumulating ∧
      (s.update n).dataIn = s.dataIn.drop n ∧
      (s.update n).halted = s.halted ∧ (s.update n).fault = s.fault ∧
      (s.update n).pending = s.pending ∧ (s.update n).digestOut = s.digestOut ∧
      (s.update n).host = s.host ∧ (s.update n).received = s.received ∧
      (s.update n).draws = s.draws := by
  intro X
  have hd : (s.recvData n).length = n := by simp [State.recvData, hn]
  obtain ⟨h1, h2, h3, h4, h5, h6, h7⟩ := absorb_spec (s.recvData n) ((s.recv n).addBits n) (by simpa using hb)
  have e1 : ((s.recv n).addBits n).bufLen = s.bufLen := rfl
  have e2 : ∀ a k, ((s.recv n).addBits n).memRead a k = s.memRead a k := fun _ _ => rfl
  simp only [e1, e2, hd] at h2 h3 h4 h5 h7
  refine ⟨h2, h3, h4, h5, h6, h7, ?_, rfl, h1.dataIn, h1.halted, h1.fault, h1.pending, h1.digestOut, h1.host,
    h1.received, h1.draws⟩
  have : (s.update n).bitLen = s.bitLen + BitVec.ofNat 64 (8 * n) := h1.bitLen
  rw [this, BitVec.toNat_add, BitVec.toNat_ofNat]
  omega

/-- A state that is not running answers every command with a stop. -/
theorem exec_stopped {s : State} (h : ¬ s.running) (i : Instr) : ∃ f, exec i s = .fault f := by
  have key : ∀ k, ∃ f, s.taken k = .fault f := fun k => by
    rcases taken_cases s k with ⟨hr, -⟩ | ⟨-, he⟩ | ⟨-, -, he⟩
    · exact absurd hr h
    · exact ⟨_, he⟩
    · exact ⟨_, he⟩
  cases i <;> simp only [exec, execInit, execUpdate, execFinal] <;> exact key _

end Sys2Proof.Machine
end

