-- ==== Sys2Proof/Laws/Message.lean ====
section
/-! SUPPORT. A state that holds a message (rules R35, R100, R113): hashing on from the state is hashing
the whole message. -/

namespace Sys2Proof.Machine

/-- A message is its whole blocks followed by its tail. -/
theorem message_split (M D : List Byte) :
    M ++ D = M.take (64 * (M.length / 64)) ++ (M.drop (64 * (M.length / 64)) ++ D) := by
  rw [← List.append_assoc, List.take_append_drop]

theorem whole_length (M : List Byte) :
    (M.take (64 * (M.length / 64))).length = 64 * (M.length / 64) := by
  rw [List.length_take]; omega

/-- The tail of a message does not count until its block is complete. -/
theorem hashBlocks_whole (H : HashState) (M : List Byte) :
    hashBlocks H (M.take (64 * (M.length / 64))) = hashBlocks H M := by
  have hl := whole_length M
  have h := hashBlocks_append H (M.take (64 * (M.length / 64))) (M.drop (64 * (M.length / 64)))
    (by omega)
  rw [List.take_append_drop] at h
  have hs : (M.drop (64 * (M.length / 64))).length < 64 := by rw [List.length_drop]; omega
  rw [h, hashBlocks_short _ hs]

/-- In a state that holds M, hashing the buffered tail and D from H is hashing M ‖ D from IV. -/
theorem hashBlocks_holds {s : State} {M : List Byte} (hM : s.Holds M) (D : List Byte) :
    hashBlocks s.h (s.memRead 0 s.bufLen.toNat ++ D) = hashBlocks iv (M ++ D) := by
  have hl := whole_length M
  rw [message_split M D, hashBlocks_append iv _ _ (by omega), hashBlocks_whole, hM.bufLen_eq,
    hM.tail_eq, hM.h_eq]

theorem holds_bufLen_le {s : State} {M : List Byte} (hM : s.Holds M) : s.bufLen.toNat ≤ 63 := by
  rw [hM.bufLen_eq]; omega

end Sys2Proof.Machine
end

