-- ==== Sys2Proof/Laws/PerInstr.lean ====
section
/-! SUPPORT. The family EncodedFields: the fields of every command's descriptor (rules R56 to R59). -/

namespace Sys2Proof.Laws.EncodedFields

/-- The descriptor of a command has RSVD = 0 (R58), its own OP (R57), and in LEN its count, which only
an UPDATE has (R59). -/
def Statement (i : Instr) : Prop :=
  rsvdField (encode i) = 0 ∧
    match i with
    | .init => opField (encode i) = 1 ∧ lenField (encode i) = 0
    | .update n => opField (encode i) = 2 ∧ (i.wf = true → (lenField (encode i)).toNat = n)
    | .final => opField (encode i) = 3 ∧ lenField (encode i) = 0

theorem init : Statement .init :=
  ⟨rsvdField_packFields _ _, opField_packFields _ _, lenField_packFields _ _⟩

theorem update (n : Nat) : Statement (.update n) := by
  refine ⟨rsvdField_packFields _ _, opField_packFields _ _, fun h => ?_⟩
  have hn : n ≤ 2 ^ 32 - 1 := of_decide_eq_true h
  rw [encode, lenField_packFields, BitVec.toNat_ofNat, Nat.mod_eq_of_lt (by omega)]

theorem final : Statement .final :=
  ⟨rsvdField_packFields _ _, opField_packFields _ _, lenField_packFields _ _⟩

end Sys2Proof.Laws.EncodedFields
end

