-- ==== Sys2Proof/Laws/Platform.lean ====
section
/-! SUPPORT. What a platform's operations do to each engine, said once (rules R51, R55, R136). -/

namespace Sys2Proof.Machine

/-- A move issued at engine `j` reaches the coming moves of `j` alone. -/
theorem Platform.issue_engines {n : Nat} (p : Platform n) (j : Fin n) (m : HostMove) (i : Fin n) :
    (p.issue j m).engines[i] =
      p.engines[i].setHost (p.engines[i].host ++ if j = i then [m] else []) := by
  unfold Platform.issue
  by_cases h : j = i
  · subst h; simp
  · have : (j : Nat) ≠ i := fun e => h (Fin.ext e)
    simp [h, this]; rfl

/-- A platform step is a step of its engine, and changes that engine alone. -/
theorem Platform.step_next {n : Nat} {p q : Platform n} {i : Fin n} :
    p.step i = .next q ↔
      ∃ t, Sys2Proof.Machine.step p.engines[i] = .next t ∧ q = ⟨p.engines.set i t⟩ := by
  unfold Platform.step
  cases h : Sys2Proof.Machine.step p.engines[i] with
  | next t => simp only [Host.Outcome.next.injEq, exists_eq_left']; exact eq_comm
  | fault f => simp
  | refused f => simp

end Sys2Proof.Machine
end

