-- ==== Sys2Proof/Laws/Step.lean ====
section
/-! SUPPORT. What a step can do, said once (rules R102, R120, R147, R148). -/

namespace Sys2Proof.Machine

/-- Every way a step answers a next state. -/
inductive StepTo (s t : State) : Prop where
  /-- The command in flight takes effect. -/
  | inFlight (i : Instr) (hp : s.pending = some i) (hd : s.dataReady i = true)
      (hn : s.resetNext = false) (he : exec i s.clearPending = .next t)
  /-- Power-on reset. -/
  | reset (rest : List HostMove) (hh : s.host = .powerOnReset :: rest)
      (ht : t = (s.setHost rest).powerOnReset)
  /-- A legal descriptor runs. -/
  | command (w : Descriptor) (rest : List HostMove) (i : Instr) (hh : s.host = .command w :: rest)
      (hr : s.ready = true) (hd : decode w = .command i) (he : exec i (s.setHost rest) = .next t)
  /-- An illegal descriptor is recorded. -/
  | illegal (w : Descriptor) (rest : List HostMove) (why : IllegalReason)
      (hh : s.host = .command w :: rest) (hs : s.running) (hr : s.ready = true)
      (hd : decode w = .illegal why)
      (ht : t = (s.setHost rest).raise (.illegalCommand w))
  /-- A data byte arrives. -/
  | data (b : Byte) (rest : List HostMove) (hh : s.host = .data b :: rest) (hs : s.running)
      (ho : s.owesData = true) (ht : t = dataMove b (s.setHost rest))
  /-- The host takes a digest byte. -/
  | take (rest : List HostMove) (hh : s.host = .take :: rest) (hs : s.running)
      (ht : t = takeMove (s.setHost rest))
  /-- An idle engine rests. -/
  | rest (hh : s.host = []) (hs : s.running) (hp : s.pending = none) (hd : s.digestOut = [])
      (ht : t = s)

theorem ready_iff (s : State) :
    s.ready = true ↔ s.halted = false ∧ s.pending = none ∧ s.digestOut = [] := by
  simp [State.ready, and_assoc]

/-- The host owes a byte exactly where an UPDATE in flight has not all its data. -/
theorem owesData_iff (s : State) :
    s.owesData = true ↔ ∃ n, s.pending = some (.update n) ∧ s.dataIn.length < n := by
  unfold State.owesData
  split
  · next hp => simp [hp]
  · next i hp => cases i <;> simp [hp, State.dataReady, State.hasData]

/-- A command in flight whose data has arrived is run, unless the host resets the engine. -/
theorem step_inFlight {s : State} {i : Instr} (hp : s.pending = some i) (hd : s.dataReady i = true)
    (hn : s.resetNext = false) : step s = exec i s.clearPending := by
  unfold step engineStep
  simp [hp, hd, hn]

/-- Otherwise the step is the host's. -/
theorem step_eq_hostStep {s : State}
    (h : ∀ i, s.pending = some i → s.dataReady i = false ∨ s.resetNext = true) :
    step s = hostStep s := by
  unfold step engineStep
  split
  · rfl
  · next i hp => rcases h i hp with h | h <;> simp [h]

/-- The host's next move, where no command in flight goes first. -/
theorem step_hostMove {s : State} {m : HostMove} {rest : List HostMove} (hh : s.host = m :: rest)
    (h : ∀ i, s.pending = some i → s.dataReady i = false ∨ s.resetNext = true) :
    step s = hostMove m (s.setHost rest) := by
  rw [step_eq_hostStep h, hostStep, hh]

theorem hostStep_next {s t : State} (h : hostStep s = .next t) : StepTo s t := by
  unfold hostStep at h
  split at h
  · next hh =>
    simp only [restMove] at h
    obtain ⟨hr, he⟩ := taken_next h
    split at he
    · cases he
    next hp =>
    split at he
    · cases he
    next hd =>
    cases he
    exact .rest hh hr (by simpa using hp) (by simpa using hd) rfl
  · next m rest hh =>
    cases m with
    | powerOnReset => cases h; exact .reset rest hh rfl
    | data b =>
      simp only [hostMove] at h
      obtain ⟨hr, he⟩ := taken_next h
      unfold sendMove at he
      split at he
      · next ho => cases he; exact .data b rest hh hr ho rfl
      · cases he
    | take => simp only [hostMove] at h; obtain ⟨hr, he⟩ := taken_next h; cases he; exact .take rest hh hr rfl
    | command w =>
      simp only [hostMove] at h
      obtain ⟨hr, he⟩ := taken_next h
      unfold commandMove at he
      split at he
      · next hy =>
        unfold runDescriptor at he
        split at he
        · next i hd => exact .command w rest i hh hy hd he
        · next why hd =>
          rw [taken_running hr] at he
          cases he
          exact .illegal w rest why hh hr hy hd rfl
      · cases he

/-- A step that answers a next state does one of the seven things of `StepTo`. -/
theorem step_next {s t : State} (h : step s = .next t) : StepTo s t := by
  unfold step engineStep at h
  split at h
  · exact hostStep_next h
  · next i hp =>
    split at h
    · next hc =>
      simp only [Bool.and_eq_true, Bool.not_eq_true'] at hc
      exact .inFlight i hp hc.1 hc.2 h
    · exact hostStep_next h

/-! Runs. -/

theorem run_zero (s : State) : Sys2Proof.core.run 0 s = .next s := rfl

/-- A run of k + 1 steps is a step and a run of k. -/
theorem run_succ (k : Nat) {s t : State} (h : step s = .next t) :
    Sys2Proof.core.run (k + 1) s = Sys2Proof.core.run k t := by
  have h' : Sys2Proof.core.step s = .next t := h
  exact (Host.Core.run.eq_2 Sys2Proof.core s k).trans (by rw [h'])

/-- A run that answers a next state went through a next state. -/
theorem run_succ_next {k : Nat} {s u : State} (h : Sys2Proof.core.run (k + 1) s = .next u) :
    ∃ t, step s = .next t ∧ Sys2Proof.core.run k t = .next u := by
  cases hs : step s with
  | next t => exact ⟨t, rfl, (run_succ k hs).symm.trans h⟩
  | fault r =>
    have h' : Sys2Proof.core.step s = .fault r := hs
    have := (Host.Core.run.eq_2 Sys2Proof.core s k).symm.trans h
    rw [h'] at this; cases this
  | refused r =>
    have h' : Sys2Proof.core.step s = .refused r := hs
    have := (Host.Core.run.eq_2 Sys2Proof.core s k).symm.trans h
    rw [h'] at this; cases this

/-- A run is a run of its first steps and then of the rest. -/
theorem run_add {j : Nat} (k : Nat) {s t : State} (h : Sys2Proof.core.run j s = .next t) :
    Sys2Proof.core.run (j + k) s = Sys2Proof.core.run k t := by
  induction j generalizing s with
  | zero => rw [run_zero] at h; cases h; rw [Nat.zero_add]
  | succ j ih =>
    obtain ⟨u, hs, hr⟩ := run_succ_next h
    rw [Nat.succ_add, run_succ _ hs, ih hr]

/-- A digest taken after whole digests is the next one shown (R145). -/
theorem digestsIn_append {a b : List Byte} (ha : a.length % 32 = 0) (hb : b.length = 32) :
    digestsIn (a ++ b) = digestsIn a ++ [b] := by
  unfold digestsIn
  rw [List.length_append, hb, show (a.length + 32) / 32 = a.length / 32 + 1 by omega, List.range_succ,
    List.map_append]
  congr 1
  · refine List.map_congr_left fun i hi => ?_
    have := List.mem_range.1 hi
    rw [List.drop_append_of_le_length (by omega),
      List.take_append_of_le_length (by rw [List.length_drop]; omega)]
  · have : 32 * (a.length / 32) = a.length := by omega
    simp [this, hb, List.take_of_length_le]

end Sys2Proof.Machine
end

