-- ==== Sys2Proof/Tests/Slice0.lean ====
section
/-! SUPPORT. Tests: the well-formedness smoke test, descriptors and vectors of spec/95_test_vectors.md,
and for every statement with hypotheses a concrete case that meets them. Every expected value is the
spec's; each test names its source. -/

namespace Sys2Proof.Tests

open Sys2Proof.Machine

/-! Helpers. -/

/-- INITIALIZED: INIT from reset (V-I1). -/
def fresh : State := State.reset.startMessage

/-- A message in progress with `b` buffered bytes 0x61, bit count `L`, and `d` on the data-in channel. -/
def inMessage (b L : Nat) (d : List Byte) : State :=
  { fresh with
    phase := .accumulating
    buf := Memory.tabulate fun a => if a < b then 0x61 else 0x00
    bufLen := BitVec.ofNat 7 b
    bitLen := BitVec.ofNat 64 L
    dataIn := d }

/-- The engine at reset with the host's moves. -/
def withHost (moves : List HostMove) : State := { State.reset with host := moves }

/-- The outcome is a next state that has a property. -/
def nextIs (o : Host.Outcome State Fault Refusal) (p : State → Bool) : Bool :=
  match o with
  | .next t => p t
  | .fault _ => false
  | .refused _ => false

/-- A byte string of eight words, as the digests are printed (R14). -/
def digestOf (ws : List Word) : List Byte := ws.flatMap be32bytes

/-! Well-formedness (R8, R59): a count of 2^32 is refused, the largest one is not. -/

theorem test_wf_refuses_large_count : (Instr.update (2 ^ 32)).wf = false := by decide

theorem test_wf_accepts_largest_count : (Instr.update (2 ^ 32 - 1)).wf = true := by decide

/-! Decoding words written out field by field: LEN ‖ RSVD ‖ OP (R56, R57). -/

theorem test_decode_init :
    decode (0b00000000000000000000000000000000_0000000000000000000000000000_0001) = .command .init := by
  decide

theorem test_decode_update :
    decode (0b10000000000000000000000000000011_0000000000000000000000000000_0010) =
      .command (.update 2147483651) := by
  decide

theorem test_decode_final :
    decode (0b00000000000000000000000000000000_0000000000000000000000000000_0011) = .command .final := by
  decide

/-- The lowest RSVD bit is no part of OP (V-D10's neighbour: R58). -/
theorem test_decode_refuses_reserved :
    decode (0b00000000000000000000000000000000_0000000000000000000000000001_0001) =
      .illegal .reservedBits := by
  decide

theorem test_table_word_runs_first :
    step (State.reset.withFetchWord 64 1) = exec .init State.reset := by rfl

/-! The functions (V-L1 to V-L10). -/

theorem test_choose_majority :
    choose 0x510e527f 0x9b05688c 0x1f83d9ab = 0x1f85c98c ∧
      majority 0xf0f0f0f0 0xff00ff00 0xcccccccc = 0xfcc0fcc0 := by
  decide

theorem test_mixing :
    bigSigma0 0x80000000 = 0x20040200 ∧ bigSigma1 0x80000000 = 0x02100040 ∧
      smallSigma0 0x00000001 = 0x02004000 ∧ smallSigma1 0x80000000 = 0x00205000 := by
  decide

/-! The schedule of the padded "abc" block (V-C3). -/

theorem test_schedule_abc :
    let W := schedule ([0x61, 0x62, 0x63, 0x80] ++ List.replicate 59 0x00 ++ [0x18])
    W.getD 17 0 = 0x000f0000 ∧ W.getD 19 0 = 0x600003c6 ∧ W.getD 62 0 = 0xeeaba2cc ∧
      W.getD 63 0 = 0x12b1edeb := by
  decide +kernel

/-! INIT (V-I1; V-I4: BUF is kept). -/

theorem test_init_values :
    nextIs (exec .init State.reset) (fun t =>
      t.h == #v[0x6a09e667, 0xbb67ae85, 0x3c6ef372, 0xa54ff53a, 0x510e527f, 0x9b05688c, 0x1f83d9ab,
        0x5be0cd19] && t.bufLen == 0 && t.bitLen == 0 && t.phase == .initialized) = true := by
  decide

theorem test_init_keeps_buffer :
    nextIs (exec .init (inMessage 10 80 [])) (fun t =>
      t.memRead 0 12 == List.replicate 10 0x61 ++ [0, 0] && t.bufLen == 0) = true := by
  decide +kernel

/-! UPDATE (V-U1; V-U8: the block completes and six bytes stay). -/

theorem test_update_abc :
    nextIs (exec (.update 3) { fresh with dataIn := [0x61, 0x62, 0x63] }) (fun t =>
      t.h == iv && t.bufLen == 3 && t.bitLen == 24 && t.compressCalls == 0 &&
        t.memRead 0 4 == [0x61, 0x62, 0x63, 0x00] && t.dataIn == []) = true := by
  decide +kernel

theorem test_update_completes_block :
    nextIs (exec (.update 10) (inMessage 60 480 (List.replicate 10 0x61))) (fun t =>
      t.bufLen == 6 && t.bitLen == 560 && t.compressCalls == 1 &&
        t.memRead 0 64 == List.replicate 64 0x61) = true := by
  decide +kernel

/-! FINAL (S-2; V-F5: 56 buffered bytes force the extra block). -/

theorem test_final_abc :
    nextIs (exec .final { inMessage 0 24 [] with buf := [(0, 0x61), (1, 0x62), (2, 0x63)], bufLen := 3 })
      (fun t => t.digestOut == digestOf [0xba7816bf, 0x8f01cfea, 0x414140de, 0x5dae2223, 0xb00361a3,
        0x96177a9c, 0xb410ff61, 0xf20015ad]) = true := by
  decide +kernel

theorem test_final_extra_block :
    nextIs (exec .final (inMessage 56 448 [])) (fun t =>
      t.compressCalls == 2 && t.digestOut == digestOf [0xb35439a4, 0xac6f0948, 0xb6d6f9e3, 0xc6af0f5f,
        0x590ce20f, 0x1bde7090, 0xef797068, 0x6ec6738a]) = true := by
  decide +kernel

/-! The assembler (R65 to R67): the text of P1 and its three descriptors. -/

theorem test_assemble_text :
    (assembleText "INIT\nUPDATE \"abc\" ; three bytes\nFINAL".toList) =
      some [⟨0x0000000000000001, []⟩, ⟨0x0000000300000002, [0x61, 0x62, 0x63]⟩,
        ⟨0x0000000000000003, []⟩] := by
  decide +kernel

theorem test_assemble_atoms :
    (assembleText "UPDATE x\"0aFF\", rep(2, 'a'), \"\\x00\\\\\"".toList) =
      some [⟨0x0000000600000002, [0x0a, 0xff, 0x61, 0x61, 0x00, 0x5c]⟩] := by
  decide +kernel

/-! A byte past an UPDATE's LEN has no move (R123, R148, U7): the UPDATE runs, and the next byte is
refused. -/

theorem test_surplus_byte_has_no_move :
    step { inMessage 1 8 [0x62] with pending := some (.update 1), host := [.data 0x63] } =
        .next (State.update 1 { inMessage 1 8 [0x62] with host := [.data 0x63] }) ∧
      step { inMessage 2 16 [] with host := [.data 0x63] } = .refused .dataNotOwed :=
  ⟨rfl, rfl⟩

/-! A reset in the middle of a digest starts a run that has shown nothing (R145, R148). -/

theorem test_reset_starts_a_run :
    step { withHost [.powerOnReset] with received := [0xba], digestOut := [0x78] } =
      .next State.reset := rfl

/-! The binding of a platform's accesses (R51, R55): a bus that writes a 64-bit descriptor in two 32-bit
halves and shows READY and HALTED of engine 1 on a third access. -/

/-- Accesses: the low half, the high half, a status read. The binding remembers the low half. -/
def halvesBinding : Binding (Fin 3 × BitVec 32) (BitVec 32) 2 where
  moves a low := if a.1 = 1 then [(1, .command (a.2 ++ low))] else []
  reads a _ := if a.1 = 2 then [(1, .ready), (1, .halted)] else []
  remember a low := if a.1 = 0 then a.2 else low

theorem test_access_reaches_one_engine :
    Platform.access halvesBinding (1, 3) (halvesBinding.remember (0, 2) 0) (Platform.reset 2) =
        ⟨#v[State.reset, withHost [.command 0x0000000300000002]]⟩ ∧
      Platform.shown halvesBinding (2, 0) 2 (Platform.reset 2) = [true, false] := by
  decide

/-! Witnesses: each shows a concrete case that meets all hypotheses of the statement it is named after. -/

theorem witness_decodeEncodeRoundTrip : (Instr.update (2 ^ 32 - 1)).wf = true := by decide

theorem witness_encodeDecodeRoundTrip :
    decode 0xFFFFFFFF00000002 = .command (.update 4294967295) := by decide

theorem witness_decoderReadsExactDescriptors :
    (0x0000000100000001 : Descriptor) ≠ 0x0000000000000001 ∧
      (0x0000000100000001 : Descriptor) ≠ 0x0000000000000003 ∧
      (0x0000000100000001 : Descriptor).toNat % 2 ^ 32 ≠ 2 := by decide

theorem witness_illegalDescriptorIsRecorded :
    (withHost [.command 0x0000000000000004]).running ∧
      (withHost [.command 0x0000000000000004]).ready = true ∧
      (decode 0x0000000000000004).toInstr = none := by decide

theorem witness_stepRunsDecodedCommand :
    (withHost [.command 2]).ready = true ∧ decode 2 = .command (.update 0) := by decide

theorem witness_stepRunsDecodedCommand_inFlight :
    let s := { inMessage 63 504 [0x61] with pending := some (.update 1) }
    s.dataReady (.update 1) = true ∧ s.resetNext = false := by decide +kernel

theorem witness_stepRunsDecodedCommand_fetch :
    decodeTableWord 64 0xFFFFFFFF00000002 = some (.update 4294967295) := by decide

theorem witness_hostDutiesAreNamed_data :
    let s := { inMessage 0 0 [0x61] with pending := some (.update 2) }
    s.running ∧ s.dataIn.length < 2 ∧ s.host = [] := by decide +kernel

theorem witness_hostDutiesAreNamed_digest :
    let s := { fresh with digestOut := [0xba] }
    s.running ∧ s.pending = none ∧ s.digestOut ≠ [] ∧ s.host = [] := by decide

theorem witness_hostDutiesAreNamed_busy :
    let s := { withHost [.command 1] with pending := some (.update 1) }
    s.running ∧ s.ready = false ∧ ∀ i, s.pending = some i → s.dataReady i = false :=
  ⟨by decide, by decide, fun i h => by cases h; decide⟩

theorem witness_hostDutiesAreNamed_idle :
    State.reset.running ∧ State.reset.ready = true ∧ State.reset.host = [] := by decide

theorem witness_hostDutiesAreNamed_notOwed :
    let s := withHost [.data 0x61]
    s.running ∧ s.host = [.data 0x61] ∧ s.pending = none := by decide

theorem witness_dataByteArrives :
    let s := { withHost [.data 0x61] with pending := some (.update 1) }
    s.running ∧ s.host = [.data 0x61] ∧ s.pending = some (.update 1) ∧ s.dataIn.length < 1 := by decide

theorem witness_waitingUpdateCompletes :
    let s := { inMessage 63 504 [0x61] with pending := some (.update 2), host := [.data 0x62] }
    s.running ∧ s.phase.isOpen = true ∧ s.bufLen.toNat ≤ 63 ∧ s.bitLen.toNat + 8 * 2 < 2 ^ 64 ∧
      s.dataIn.length + [(0x62 : Byte)].length = 2 ∧
      s.host = [(0x62 : Byte)].map HostMove.data ++ [] ∧
      ([] : List HostMove).head? ≠ some .powerOnReset := by decide +kernel

theorem witness_digestIsTakenInOrder :
    let s := { withHost [.take, .take, .command 1] with digestOut := [0xba, 0x78] }
    s.running ∧ s.pending = none ∧
      s.host = List.replicate s.digestOut.length .take ++ [.command 1] := by decide

theorem witness_initStartsMessage : State.reset.running := by decide

theorem witness_initStartsMessage_halted :
    ({ State.reset with halted := true, fault := .invariantAbort 64 } : State).halted = true := by decide

theorem witness_initIsIdempotent :
    State.reset.running ∧ State.reset.phase = .uninit ∧ exec .init State.reset = .next fresh :=
  ⟨by decide, by decide, rfl⟩

theorem witness_initIsIdempotent_finalized :
    let s := { State.reset with phase := .finalized }
    s.running ∧ s.phase = .finalized := by decide

/-- The largest buffer index and the largest bit count that an UPDATE of one byte may meet (V-F11). -/
theorem witness_updateAbsorbsBlocks :
    let s := inMessage 63 (2 ^ 64 - 16) [0x61]
    s.running ∧ s.phase.isOpen = true ∧ s.bufLen.toNat ≤ 63 ∧ s.bitLen.toNat + 8 * 1 < 2 ^ 64 ∧
      1 ≤ s.dataIn.length := by decide +kernel

theorem witness_updateFrame :
    let s := inMessage 62 496 [0x61]
    exec (.update 1) s = .next (s.update 1) ∧ (s.update 1).fault = .none ∧ 1 ≤ s.dataIn.length ∧
      s.bufLen.toNat + 1 < 64 ∧ s.bufLen.toNat + 1 ≤ 63 := by
  refine ⟨execUpdate_effect ?_ ?_ ?_ ?_ ?_, ?_, ?_, ?_, ?_⟩ <;> decide +kernel

theorem witness_updateFrame_completes :
    let s := inMessage 63 504 [0x61]
    exec (.update 1) s = .next (s.update 1) ∧ (s.update 1).fault = .none ∧ 1 ≤ s.dataIn.length ∧
      ¬ s.bufLen.toNat + 1 < 64 ∧ (s.bufLen.toNat + 1) % 64 ≤ 0 ∧ 0 < s.bufLen.toNat := by
  refine ⟨execUpdate_effect ?_ ?_ ?_ ?_ ?_, ?_, ?_, ?_, ?_, ?_⟩ <;> decide +kernel

theorem witness_bitCountIsExact :
    let s := inMessage 1 (2 ^ 64 - 8) [0x61]
    s.running ∧ s.phase.isOpen = true ∧ s.bufLen.toNat ≤ 63 ∧ 2 ^ 64 ≤ s.bitLen.toNat + 8 * 1 := by
  decide +kernel

theorem witness_partialBlockStaysPartial :
    let s := inMessage 62 496 [0x61]
    s.running ∧ s.phase.isOpen = true ∧ s.bitLen.toNat + 8 * 1 < 2 ^ 64 ∧ 1 ≤ s.dataIn.length ∧
      0 < s.bufLen.toNat ∧ s.bufLen.toNat + 1 < 64 ∧ s.bufLen.toNat + 1 ≤ 63 := by decide +kernel

theorem witness_emptyUpdateChangesPhaseOnly :
    let s := inMessage 63 504 []
    s.running ∧ s.phase.isOpen = true ∧ s.bufLen.toNat ≤ 63 ∧ s.buf.wf := by decide +kernel

theorem witness_updateWaitsForData :
    let s := inMessage 63 504 []
    s.running ∧ s.phase.isOpen = true ∧ s.bufLen.toNat ≤ 63 ∧ s.bitLen.toNat + 8 * 1 < 2 ^ 64 ∧
      s.dataIn.length < 1 := by decide +kernel

/-- A state that holds a one-byte message. -/
theorem one_byte_holds (d : List Byte) (moves : List HostMove) :
    ({ inMessage 1 8 d with host := moves } : State).Holds [0x61] :=
  have h1 : (inMessage 1 8 []).bufLen.toNat = 1 % 64 := by decide +kernel
  have h2 : (inMessage 1 8 []).memRead 0 (1 % 64) = [0x61] := by decide +kernel
  have h3 : (inMessage 1 8 []).bitLen.toNat = 8 * 1 := by decide +kernel
  ⟨h1, h2, h3, rfl⟩

theorem witness_updateExtendsMessage :
    let s := inMessage 1 8 [0x62]
    s.running ∧ s.phase.isOpen = true ∧ s.Holds [0x61] ∧ 8 * ([(0x61 : Byte)].length + 1) < 2 ^ 64 ∧
      1 ≤ s.dataIn.length :=
  ⟨by decide +kernel, by decide +kernel, one_byte_holds _ _, by decide, by decide⟩

theorem witness_finalPadsAndEmits :
    (inMessage 55 440 []).running ∧ (inMessage 55 440 []).phase.isOpen = true ∧
      (inMessage 55 440 []).bufLen.toNat = 55 ∧ (inMessage 56 448 []).bufLen.toNat = 56 ∧
      (inMessage 63 504 []).bufLen.toNat = 63 := by decide +kernel

theorem witness_finalFrame :
    let s := inMessage 55 440 []
    exec .final s = .next s.finalize ∧ s.finalize.fault = .none ∧ 54 < s.bufLen.toNat ∧
      s.bufLen.toNat ≤ 55 := by
  have hb : (inMessage 55 440 []).bufLen.toNat ≤ 63 := by decide +kernel
  obtain ⟨-, -, -, -, -, -, -, -, -, -, -, h, -⟩ := finalize_spec (inMessage 55 440 []) hb
  exact ⟨execFinal_effect (by decide +kernel) (by decide +kernel) hb, h.trans (by decide +kernel),
    by decide +kernel, by decide +kernel⟩

theorem witness_lengthFieldIsBigEndian :
    let s := inMessage 63 (2 ^ 64 - 8) []
    s.running ∧ s.phase.isOpen = true ∧ s.bufLen.toNat ≤ 63 := by decide +kernel

theorem witness_digestIsBigEndian :
    fresh.running ∧ fresh.phase.isOpen = true ∧ fresh.bufLen.toNat ≤ 63 := by decide

theorem witness_finalEmitsSha256 :
    let s := inMessage 1 8 []
    s.running ∧ s.phase.isOpen = true ∧ s.Holds [0x61] :=
  ⟨by decide +kernel, by decide +kernel, one_byte_holds _ _⟩

theorem witness_streamingEquivalence :
    let s := { State.reset with dataIn := [0x61, 0x62] }
    s.running ∧ (∀ c ∈ [1, 0, 1], c ≤ 2 ^ 32 - 1) ∧ (∀ c ∈ [2], c ≤ 2 ^ 32 - 1) ∧
      [1, 0, 1].sum = [2].sum ∧ [1, 0, 1].sum ≤ s.dataIn.length ∧ 8 * [1, 0, 1].sum < 2 ^ 64 := by
  decide

theorem witness_hostReceivesSha256 :
    let pieces : List (List Byte) := [[0x61], [], [0x62]]
    let s := withHost (hostProgram ([⟨encode .init, []⟩] ++
      pieces.map (fun d => ⟨encode (.update d.length), d⟩) ++ [⟨encode .final, []⟩]) ++ [])
    s.running ∧ s.pending = none ∧ s.dataIn = [] ∧ s.digestOut = [] ∧
      (∀ d ∈ pieces, d.length ≤ 2 ^ 32 - 1) ∧ 8 * pieces.flatten.length < 2 ^ 64 := by decide

theorem witness_contractViolationIsRecorded :
    State.reset.running ∧ State.reset.phase = .uninit ∧ exec .init State.reset = .next fresh :=
  ⟨by decide, by decide, rfl⟩

theorem witness_corruptIndexAborts :
    (inMessage 64 512 []).running ∧ (inMessage 64 512 []).phase.isOpen = true ∧
      63 < (inMessage 64 512 []).bufLen.toNat ∧ 63 < (inMessage 127 1016 []).bufLen.toNat := by
  decide +kernel

theorem witness_lengthOverflowIsRecorded :
    let s := inMessage 1 8 []
    s.running ∧ s.phase.isOpen = true ∧ s.bufLen.toNat ≤ 63 ∧ s.Holds [0x61] ∧
      2 ^ 64 ≤ s.bitLen.toNat + 8 * (2 ^ 61 - 1) ∧ 2 ^ 61 ≤ [(0x61 : Byte)].length + (2 ^ 61 - 1) :=
  ⟨by decide +kernel, by decide +kernel, by decide +kernel, one_byte_holds _ _, by decide +kernel,
    by decide⟩

theorem witness_faultsArePrecise :
    let t := { State.reset with fault := FaultRecord.contractViolation .uninit .final }
    exec .final State.reset = .next t ∧ t.fault ≠ .none := ⟨rfl, by decide⟩

theorem witness_faultsArePrecise_abort :
    let s := { fresh with bufLen := 64 }
    let t := { s with halted := true, fault := FaultRecord.invariantAbort 64 }
    exec (.update 1) s = .next t ∧ t.fault ≠ .none ∧ t.fault.code = 3 := ⟨rfl, by decide, by decide⟩

theorem witness_firstConditionWins_halted :
    let s := { withHost [.command 0] with halted := true, fault := .invariantAbort 64 }
    s.host = [.command 0] ∧ s.halted = true := by decide

/-- One state in which the phase, the index and the count are all wrong, so that only the first is
taken. -/
theorem witness_firstConditionWins :
    let s := { inMessage 64 (2 ^ 64 - 8) [] with phase := .uninit, host := [.command 0x0000000100000002] }
    s.running ∧ s.ready = true ∧ decode 0x0000000100000002 = .command (.update 1) ∧
      Instr.update 1 ≠ .init ∧ s.phase.isOpen = false ∧ 63 < s.bufLen.toNat ∧
      2 ^ 64 ≤ s.bitLen.toNat + 8 * 1 := by decide +kernel

theorem witness_firstConditionWins_abort :
    let s := { inMessage 64 (2 ^ 64 - 8) [] with host := [.command 0x0000000100000002] }
    s.running ∧ s.ready = true ∧ s.phase.isOpen = true ∧ 63 < s.bufLen.toNat ∧
      2 ^ 64 ≤ s.bitLen.toNat + 8 * 1 := by decide +kernel

theorem witness_firstConditionWins_overflow :
    let s := { inMessage 63 (2 ^ 64 - 8) [] with host := [.command 0x0000000100000002] }
    s.running ∧ s.ready = true ∧ s.phase.isOpen = true ∧ s.bufLen.toNat ≤ 63 ∧
      2 ^ 64 ≤ s.bitLen.toNat + 8 * 1 := by decide +kernel

theorem witness_firstConditionWins_illegal :
    decode 0x0000000000000012 = .illegal .reservedBits ∧
      (withHost [.command 0x0000000000000012]).ready = true := by decide

theorem witness_stoppedTakesNoStep :
    let s := { State.reset with fault := FaultRecord.illegalCommand 0 }
    ¬ s.running ∧ s.resetNext = false := by decide

theorem witness_stoppedTakesNoStep_halted :
    let s := { State.reset with halted := true, fault := FaultRecord.invariantAbort 64 }
    s.halted = true ∧ ¬ s.running := by decide

theorem witness_haltedRecordsAbort :
    let s := { withHost [.powerOnReset] with halted := true, fault := .invariantAbort 64 }
    (s.halted = true → s.fault.code = 3) ∧ step s = .next State.reset := ⟨by decide, rfl⟩

theorem witness_powerOnResetRestoresEverything :
    let s := { withHost [.powerOnReset] with halted := true, fault := .invariantAbort 64 }
    s.host = [.powerOnReset] ∧ step s = .next State.reset ∧ s.halted = true ∧
      State.reset.halted = false := ⟨by decide, rfl, by decide, by decide⟩

theorem witness_stepKeepsBounds : State.reset.WellKept ∧ step State.reset = .next State.reset := by
  refine ⟨?_, rfl⟩
  constructor
  case pending_update => intro i h; cases h
  all_goals decide

theorem witness_runsNeverAbort :
    Sys2Proof.core.run 1 (withHost [.command 1]) = .next { fresh with host := [] } := rfl

theorem witness_stepKeepsMessageInvariant :
    let s := { inMessage 1 8 [] with host := [.take] }
    s.HoldsSome ∧ step s = .next { inMessage 1 8 [] with host := [] } :=
  ⟨fun _ => ⟨[0x61], one_byte_holds _ _⟩, rfl⟩

theorem witness_writersOfWorkingState :
    step (withHost [.command 1]) = .next { fresh with host := [] } := rfl

theorem witness_phaseTransitions :
    let s := { inMessage 63 (2 ^ 64 - 16) [0x61] with phase := .initialized }
    s.running ∧ s.phase = .initialized ∧ s.bufLen.toNat ≤ 63 ∧ s.bitLen.toNat + 8 * 1 < 2 ^ 64 ∧
      1 ≤ s.dataIn.length ∧ State.reset.phase = .uninit := by decide +kernel

theorem witness_channelsBelongToTheirCommands : exec .init State.reset = .next fresh := rfl

/-- Two states that differ in a stale byte alone. -/
theorem witness_staleBytesAreUnobservable :
    let s := inMessage 1 8 []
    let s' := { s with buf := [(0, 0x61), (63, 0xff)] }
    s.AgreeLive s' ∧ s' ≠ s := by
  refine ⟨⟨rfl, ?_⟩, ?_⟩ <;> decide +kernel

theorem witness_enginesAreIndependent :
    let p : Platform 2 := ⟨#v[withHost [.command 1], State.reset]⟩
    p.step 0 = .next ⟨#v[{ fresh with host := [] }, State.reset]⟩ ∧ (1 : Fin 2) ≠ 0 ∧
      Platform.step ⟨#v[{ fresh with host := [] }, State.reset]⟩ (1 : Fin 2) =
        .next ⟨#v[{ fresh with host := [] }, State.reset]⟩ := ⟨rfl, by decide, rfl⟩

theorem witness_hashExpandsToFewestUpdates :
    let data : List Byte := [0x61]
    [data] ≠ [] ∧ [data].flatten = data ∧ (∀ d ∈ [data], d.length ≤ 2 ^ 32 - 1) ∧
      data.length ≤ 2 ^ 32 - 1 := by decide

theorem witness_assembledUpdateCarriesItsData :
    (literalBytes [.text [0x61]]).length ≤ 2 ^ 32 - 1 ∧
      2 ^ 32 - 1 < (literalBytes [.rep (2 ^ 32) 0x00]).length := by
  refine ⟨by decide, ?_⟩
  rw [literalBytes, List.flatMap_cons, List.flatMap_nil, List.append_nil, Atom.bytes,
    List.length_replicate]
  decide

theorem witness_runShowsItsDigests :
    let s := withHost (hostProgram ([[], [0x61]].flatMap assembleHash))
    s.running ∧ s.pending = none ∧ s.dataIn = [] ∧ s.digestOut = [] ∧ s.received.length % 32 = 0 ∧
      ∀ M ∈ ([[], [0x61]] : List (List Byte)), 8 * M.length < 2 ^ 64 := by decide

theorem witness_runShowsItsDigests_notEnded :
    ¬ (withHost [.command 1]).endsWell ∧ (withHost [.powerOnReset]).resetNext = true ∧
      step (withHost [.powerOnReset]) = .next State.reset := ⟨by decide, by decide, rfl⟩

end Sys2Proof.Tests
end

section
/-! The byte-order helpers of R12: what `be32`, `be32bytes` and `be64bytes` are as numbers. -/

namespace Sys2Proof.Machine

/-- Four bytes fit in a word, so the sum that defines `be32` does not wrap. -/
@[simp] theorem be32_toNat (b0 b1 b2 b3 : Byte) :
    (be32 b0 b1 b2 b3).toNat =
      b0.toNat * 2 ^ 24 + b1.toNat * 2 ^ 16 + b2.toNat * 2 ^ 8 + b3.toNat := by
  rw [be32, BitVec.toNat_ofNat]
  exact Nat.mod_eq_of_lt (by omega)

/-- Reading bytes on from the value `n`, a word's four bytes shift `n` by 32 bits and add the word. -/
theorem foldl_be32bytes (n : Nat) (w : Word) :
    (be32bytes w).foldl (fun n b => 256 * n + b.toNat) n = 2 ^ 32 * n + w.toNat := by
  simp only [be32bytes, List.foldl_cons, List.foldl_nil, BitVec.extractLsb'_toNat,
    Nat.shiftRight_eq_div_pow]
  omega

theorem be32bytes_be32 (b0 b1 b2 b3 : Byte) : be32bytes (be32 b0 b1 b2 b3) = [b0, b1, b2, b3] := by
  have byte_eq (b : Byte) (k : Nat)
      (h : (be32 b0 b1 b2 b3).toNat / 2 ^ k % 2 ^ 8 = b.toNat) :
      (be32 b0 b1 b2 b3).extractLsb' k 8 = b :=
    BitVec.eq_of_toNat_eq (by rw [BitVec.extractLsb'_toNat, Nat.shiftRight_eq_div_pow, h])
  rw [be32bytes, byte_eq b0, byte_eq b1, byte_eq b2, byte_eq b3] <;> rw [be32_toNat] <;> omega

/-- Both sides have the same big-endian value, since `be32` is the value of its four bytes. -/
theorem be32_of_be32bytes_eq {w : Word} {b0 b1 b2 b3 : Byte}
    (h : be32bytes w = [b0, b1, b2, b3]) : be32 b0 b1 b2 b3 = w := by
  have hw := foldl_be32bytes 0 w
  rw [h] at hw
  simp only [List.foldl_cons, List.foldl_nil] at hw
  refine BitVec.eq_of_toNat_eq ?_
  rw [be32_toNat]
  omega

/-- The big-endian value of `be64bytes v` is `v`: its high word is read first and shifted by 32 bits. -/
theorem foldl_be64bytes (v : BitVec 64) :
    (be64bytes v).foldl (fun n b => 256 * n + b.toNat) 0 = v.toNat := by
  rw [be64bytes, List.foldl_append, foldl_be32bytes, foldl_be32bytes]
  simp only [BitVec.extractLsb'_toNat, Nat.shiftRight_eq_div_pow]
  omega

/-- Settles O50: `be32` does not wrap, and the other values are big-endian folds, one word at a time. -/
theorem byteOrderHelpers : Obligations.ByteOrderHelpers :=
  ⟨fun b0 b1 b2 b3 => ⟨be32_toNat b0 b1 b2 b3, be32bytes_be32 b0 b1 b2 b3⟩,
    fun _ => ⟨_, _, _, _, rfl, be32_of_be32bytes_eq rfl⟩,
    fun v => ⟨be64bytes_length v, foldl_be64bytes v⟩⟩

end Sys2Proof.Machine
end

section
/-! What the commands answer in each of their cases (rules R87, R91, R103, R125), beside
`execUpdate_effect` and `execFinal_effect`. -/

namespace Sys2Proof.Machine

/-- A command given to a running engine always answers a next state: the model has no move to refuse
and no stop but that of an engine that is not running (R118). -/
theorem exec_running {s : State} (hr : s.running) (i : Instr) : ∃ t, exec i s = .next t := by
  cases i <;> simp only [exec, execInit, execUpdate, execFinal] <;> rw [taken_running hr]
  case init => exact ⟨_, rfl⟩
  case update => split_ifs <;> exact ⟨_, rfl⟩
  case final => split_ifs <;> exact ⟨_, rfl⟩

/-- An engine that is not running answers every command with the stop HALTED and FAULT name. -/
theorem exec_not_running {s : State} (h : ¬ s.running) (i : Instr) :
    exec i s = .fault (if s.halted then .halted else .faulted s.fault) := by
  have key (k : State → Host.Outcome State Fault Refusal) :
      s.taken k = .fault (if s.halted then .halted else .faulted s.fault) := by
    rcases taken_cases s k with ⟨hr, -⟩ | ⟨hh, he⟩ | ⟨hh, -, he⟩
    · exact absurd hr h
    all_goals simp [he, hh]
  cases i <;> simp only [exec, execInit, execUpdate, execFinal] <;> exact key _

theorem execInit_effect {s : State} (hr : s.running) : exec .init s = .next s.startMessage := by
  simp only [exec, execInit]
  rw [taken_running hr]

theorem execUpdate_closed {n : Nat} {s : State} (hr : s.running) (h : s.phase.isOpen = false) :
    exec (.update n) s = .next (s.raise (.contractViolation s.phase (.update n))) := by
  simp only [exec, execUpdate]
  rw [taken_running hr]
  simp [h]

theorem execUpdate_corrupt {n : Nat} {s : State} (hr : s.running) (h1 : s.phase.isOpen = true)
    (h2 : 63 < s.bufLen.toNat) :
    exec (.update n) s = .next (s.abort (.invariantAbort s.bufLen)) := by
  simp only [exec, execUpdate]
  rw [taken_running hr]
  simp [h1, State.indexCorrupt, h2]

theorem execUpdate_overflow {n : Nat} {s : State} (hr : s.running) (h1 : s.phase.isOpen = true)
    (h2 : s.bufLen.toNat ≤ 63) (h3 : 2 ^ 64 ≤ s.bitLen.toNat + 8 * n) :
    exec (.update n) s = .next (s.raise (.lengthOverflow s.bitLen n)) := by
  simp only [exec, execUpdate]
  rw [taken_running hr]
  have h3' : s.lengthOverflows n = true := decide_eq_true h3
  simp [h1, State.indexCorrupt, Nat.not_lt.2 h2, h3']

theorem execUpdate_waits {n : Nat} {s : State} (hr : s.running) (h1 : s.phase.isOpen = true)
    (h2 : s.bufLen.toNat ≤ 63) (h3 : s.bitLen.toNat + 8 * n < 2 ^ 64) (h4 : s.dataIn.length < n) :
    exec (.update n) s = .next (s.awaitData (.update n)) := by
  simp only [exec, execUpdate]
  rw [taken_running hr]
  have h3' : s.lengthOverflows n = false := decide_eq_false (Nat.not_le.2 h3)
  simp [h1, State.indexCorrupt, Nat.not_lt.2 h2, h3', State.hasData, Nat.not_le.2 h4]

theorem execFinal_closed {s : State} (hr : s.running) (h : s.phase.isOpen = false) :
    exec .final s = .next (s.raise (.contractViolation s.phase .final)) := by
  simp only [exec, execFinal]
  rw [taken_running hr]
  simp [h]

theorem execFinal_corrupt {s : State} (hr : s.running) (h1 : s.phase.isOpen = true)
    (h2 : 63 < s.bufLen.toNat) :
    exec .final s = .next (s.abort (.invariantAbort s.bufLen)) := by
  simp only [exec, execFinal]
  rw [taken_running hr]
  simp [h1, State.indexCorrupt, h2]

end Sys2Proof.Machine

namespace Sys2Proof

/-- Only well-formed commands are decoded: LEN has 32 bits (R59, R64). -/
theorem decode_command_wf {w : Descriptor} {i : Instr} (h : decode w = .command i) : i.wf = true := by
  unfold decode at h
  split_ifs at h <;> cases h
  · rfl
  · exact decide_eq_true (Nat.le_sub_one_of_lt (lenField w).isLt)
  · rfl

end Sys2Proof
end

section
/-! The bounds of `State.WellKept` at reset and after every step (rules R19, R40, R122). -/

namespace Sys2Proof.Machine

/-- Power-on reset meets the bounds from every state, whatever it held before (R139). -/
theorem powerOnReset_wellKept (s : State) : s.powerOnReset.WellKept where
  buf_wf := Memory.reset_wf
  bufLen_open _ := by simp
  bufLen_all := by simp
  not_halted := rfl
  no_abort := by simp [FaultRecord.code]
  pending_update _ h := by simp at h
  data_owed _ := rfl
  pending_open h := absurd rfl h
  digest_le := Nat.zero_le _
  digests_whole := rfl

namespace State.WellKept

variable {s : State}

theorem bufLen_le_of_isOpen (hk : s.WellKept) (ho : s.phase.isOpen = true) : s.bufLen.toNat ≤ 63 :=
  hk.bufLen_open fun h => by simp [h, Phase.isOpen] at ho

theorem setHost (hk : s.WellKept) (moves : List HostMove) : (s.setHost moves).WellKept :=
  { hk with }

theorem raise (hk : s.WellKept) {r : FaultRecord} (hr : r.code ≠ 3) : (s.raise r).WellKept :=
  { hk with
    no_abort := by
      rw [State.raise_fault]
      split
      · exact hr
      · exact hk.no_abort }

/-- INIT runs when nothing is in flight, so no command in flight sees PHASE or BIT_LEN change. -/
theorem startMessage (hk : s.WellKept) (hp : s.pending = none) : s.startMessage.WellKept :=
  { hk with
    bufLen_open := fun _ => by simp
    bufLen_all := by simp
    pending_update := fun i h => by simp [hp] at h
    pending_open := fun h => absurd hp h }

/-- An UPDATE that an idle engine takes up waits for its first byte: the data-in channel is empty. -/
theorem awaitData (hk : s.WellKept) (hp : s.pending = none) (hd : s.digestOut = []) {n : Nat}
    (hn : n ≤ 2 ^ 32 - 1) (ho : s.phase.isOpen = true) (hl : s.bitLen.toNat + 8 * n < 2 ^ 64) :
    (s.awaitData (.update n)).WellKept :=
  { hk with
    pending_update := by
      rintro i ⟨⟩
      exact ⟨n, rfl, hn, by simp [hk.data_owed hp], hl⟩
    data_owed := fun h => by simp at h
    pending_open := fun _ => ⟨ho, hd⟩ }

/-- The UPDATE in flight takes effect with exactly the bytes it was owed, so the data-in channel is
empty after it. -/
theorem update (hk : s.WellKept) {n : Nat} (hp : s.pending = some (.update n))
    (hn : n ≤ s.dataIn.length) : (s.clearPending.update n).WellKept := by
  obtain ⟨_, ⟨⟩, -, hle, hl⟩ := hk.pending_update _ hp
  have hb := hk.bufLen_le_of_isOpen (hk.pending_open (by simp [hp])).1
  obtain ⟨-, -, hlen, -, hwf, -, -, -, hdata, hhalt, hfault, hpend, hout, -, hrec, -⟩ :=
    update_spec n s.clearPending hb hl hn
  have hpend : (s.clearPending.update n).pending = none := hpend
  have hbound : (s.clearPending.update n).bufLen.toNat ≤ 63 := by rw [hlen]; omega
  exact {
    buf_wf := hwf
    bufLen_open := fun _ => hbound
    bufLen_all := by omega
    not_halted := hhalt.trans hk.not_halted
    no_abort := by rw [hfault]; exact hk.no_abort
    pending_update := fun i h => by simp [hpend] at h
    data_owed := fun _ => hdata.trans (List.drop_eq_nil_of_le hle)
    pending_open := fun h => absurd hpend h
    digest_le := by rw [hout]; exact hk.digest_le
    digests_whole := by rw [hout, hrec]; exact hk.digests_whole }

/-- FINAL runs when the host has taken the digest before, so its 32 bytes are all there is on the
digest-out channel. -/
theorem finalize (hk : s.WellKept) (hp : s.pending = none) (hd : s.digestOut = [])
    (ho : s.phase.isOpen = true) : s.finalize.WellKept := by
  obtain ⟨-, hout, -, -, hwf, -, hlen, -, hphase, -, hhalt, hfault, hpend, hdata, -, hrec⟩ :=
    finalize_spec s (hk.bufLen_le_of_isOpen ho)
  have hpend : s.finalize.pending = none := hpend.trans hp
  have hout : s.finalize.digestOut.length = 32 := by
    rw [hout, hd, List.nil_append, digestBytes_length]
  have hwhole := hk.digests_whole
  rw [hd, List.length_nil] at hwhole
  exact {
    buf_wf := hwf
    bufLen_open := fun h => absurd hphase h
    bufLen_all := hlen
    not_halted := hhalt.trans hk.not_halted
    no_abort := by rw [hfault]; exact hk.no_abort
    pending_update := fun i h => by simp [hpend] at h
    data_owed := fun _ => hdata.trans (hk.data_owed hp)
    pending_open := fun h => absurd hpend h
    digest_le := hout.le
    digests_whole := by rw [hrec, hout]; omega }

/-- A byte that is owed leaves the channel within what the UPDATE in flight is owed (R102). -/
theorem dataMove (hk : s.WellKept) (ho : s.owesData = true) (b : Byte) :
    (Machine.dataMove b s).WellKept := by
  obtain ⟨n, hp, hlt⟩ := (owesData_iff s).1 ho
  obtain ⟨_, ⟨⟩, hn, -, hl⟩ := hk.pending_update _ hp
  exact { hk with
    pending_update := fun i h => by
      obtain rfl : Instr.update n = i := Option.some.inj (hp.symm.trans h)
      exact ⟨n, rfl, hn, by simpa [Machine.dataMove] using hlt, hl⟩
    data_owed := fun h => by simp [Machine.dataMove, hp] at h }

/-- A digest byte moves from the channel to the host: their sum stays (R43). -/
theorem takeMove (hk : s.WellKept) : (Machine.takeMove s).WellKept := by
  unfold Machine.takeMove
  split
  · exact hk
  · next b rest hd =>
    have hle := hk.digest_le
    have hwhole := hk.digests_whole
    rw [hd, List.length_cons] at hle hwhole
    exact { hk with
      pending_open := fun h => absurd (hk.pending_open h).2 (by simp [hd])
      digest_le := by simp only; omega
      digests_whole := by simp only [List.length_append, List.length_singleton]; omega }

/-- A command that an idle engine takes keeps the bounds. The abort is not among its answers, since an
open phase has BUF_LEN at most 63. -/
theorem exec_next (hk : s.WellKept) (hy : s.ready = true) {i : Instr} (hi : i.wf = true) {t : State}
    (h : exec i s = .next t) : t.WellKept := by
  obtain ⟨-, hp, hd⟩ := (ready_iff s).1 hy
  cases i with
  | init =>
    obtain ⟨-, rfl⟩ := execInit_next h
    exact hk.startMessage hp
  | update n =>
    obtain ⟨-, ⟨-, rfl⟩ | ⟨ho, hb, -⟩ | ⟨-, -, -, rfl⟩ | ⟨ho, -, hl, -, rfl⟩ | ⟨ho, -, hl, hn, rfl⟩⟩ :=
      execUpdate_next h
    · exact hk.raise (by simp [FaultRecord.code])
    · exact absurd (hk.bufLen_le_of_isOpen ho) (Nat.not_le.2 hb)
    · exact hk.raise (by simp [FaultRecord.code])
    · exact hk.awaitData hp hd (of_decide_eq_true hi) ho hl
    · have hw := (hk.awaitData hp hd (of_decide_eq_true hi) ho hl).update rfl hn
      have hs : (s.awaitData (.update n)).clearPending = s := by
        cases s; cases hp; rfl
      rwa [hs] at hw
  | final =>
    obtain ⟨-, ⟨-, rfl⟩ | ⟨ho, hb, -⟩ | ⟨ho, -, rfl⟩⟩ := execFinal_next h
    · exact hk.raise (by simp [FaultRecord.code])
    · exact absurd (hk.bufLen_le_of_isOpen ho) (Nat.not_le.2 hb)
    · exact hk.finalize hp hd ho

/-- The command in flight, which is an UPDATE whose checks have passed, takes effect. -/
theorem exec_inFlight (hk : s.WellKept) {i : Instr} (hp : s.pending = some i)
    (hd : s.dataReady i = true) {t : State} (h : exec i s.clearPending = .next t) :
    t.WellKept := by
  obtain ⟨n, rfl, -, -, hl⟩ := hk.pending_update _ hp
  have ho := (hk.pending_open (by simp [hp])).1
  have hn : n ≤ s.dataIn.length := of_decide_eq_true hd
  obtain ⟨hr, -⟩ := execUpdate_next h
  rw [execUpdate_effect hr ho (hk.bufLen_le_of_isOpen ho) hl hn] at h
  cases h
  exact hk.update hp hn

end State.WellKept

/-- Settles O37: one lemma for each way of taking a step. -/
theorem stepKeepsBounds : Obligations.StepKeepsBounds := by
  intro s t hk h
  cases step_next h with
  | inFlight i hp hd hn he => exact hk.exec_inFlight hp hd he
  | reset rest hh ht => exact ht ▸ powerOnReset_wellKept _
  | command w rest i hh hr hd he => exact (hk.setHost rest).exec_next hr (decode_command_wf hd) he
  | illegal w rest why hh hs hr hd ht =>
    exact ht ▸ (hk.setHost rest).raise (by simp [FaultRecord.code])
  | data b rest hh hs ho ht => exact ht ▸ (hk.setHost rest).dataMove ho b
  | take rest hh hs ht => exact ht ▸ (hk.setHost rest).takeMove
  | rest hh hs hp hd ht => exact ht ▸ hk

/-- Settles O36: reset is a power-on reset of itself, and no message is open in UNINIT. -/
theorem resetWellKept : Obligations.ResetWellKept :=
  ⟨powerOnReset_wellKept State.reset, fun h => by cases h⟩

end Sys2Proof.Machine
end

section
/-! The working state H, BUF, BUF_LEN, BIT_LEN, PHASE (and the count of COMPRESS calls): which commands
and which steps write it, said once (rules R17 to R22, R118). -/

namespace Sys2Proof.Machine

/-- `t` has the working state of `s`. -/
structure KeepsWorking (s t : State) : Prop where
  h : t.h = s.h
  buf : t.buf = s.buf
  bufLen : t.bufLen = s.bufLen
  bitLen : t.bitLen = s.bitLen
  phase : t.phase = s.phase
  compressCalls : t.compressCalls = s.compressCalls

/-- A command that answers a next state takes effect, or it keeps the working state: a fault taken, the
abort, or the wait for data (R102, R118). -/
theorem exec_next {i : Instr} {s t : State} (h : exec i s = .next t) :
    (i = .init ∧ t = s.startMessage) ∨
      (∃ n, i = .update n ∧ s.phase.isOpen = true ∧ s.bufLen.toNat ≤ 63 ∧
        s.bitLen.toNat + 8 * n < 2 ^ 64 ∧ n ≤ s.dataIn.length ∧ t = s.update n) ∨
      (i = .final ∧ s.phase.isOpen = true ∧ s.bufLen.toNat ≤ 63 ∧ t = s.finalize) ∨
      KeepsWorking s t := by
  cases i with
  | init => exact .inl ⟨rfl, (execInit_next h).2⟩
  | update n =>
    obtain ⟨-, ⟨-, rfl⟩ | ⟨-, -, rfl⟩ | ⟨-, -, -, rfl⟩ | ⟨-, -, -, -, rfl⟩ | heffect⟩ :=
      execUpdate_next h
    case inr.inr.inr.inr => exact .inr (.inl ⟨n, rfl, heffect⟩)
    all_goals exact .inr (.inr (.inr ⟨rfl, rfl, rfl, rfl, rfl, rfl⟩))
  | final =>
    obtain ⟨-, ⟨-, rfl⟩ | ⟨-, -, rfl⟩ | heffect⟩ := execFinal_next h
    case inr.inr => exact .inr (.inr (.inl ⟨rfl, heffect⟩))
    all_goals exact .inr (.inr (.inr ⟨rfl, rfl, rfl, rfl, rfl, rfl⟩))

theorem takeMove_keepsWorking (s : State) : KeepsWorking s (takeMove s) := by
  unfold takeMove
  split <;> exact ⟨rfl, rfl, rfl, rfl, rfl, rfl⟩

/-- A step runs a command on the working state, or it is a power-on reset, or it keeps the working
state. -/
theorem step_working {s t : State} (h : step s = .next t) :
    (∃ i u, KeepsWorking s u ∧ exec i u = .next t) ∨
      (s.resetNext = true ∧ ∃ u : State, t = u.powerOnReset) ∨ KeepsWorking s t := by
  cases step_next h with
  | inFlight i hp hd hn he => exact .inl ⟨i, s.clearPending, ⟨rfl, rfl, rfl, rfl, rfl, rfl⟩, he⟩
  | reset rest hh ht => exact .inr (.inl ⟨by simp [State.resetNext, hh], _, ht⟩)
  | command w rest i hh hr hd he => exact .inl ⟨i, s.setHost rest, ⟨rfl, rfl, rfl, rfl, rfl, rfl⟩, he⟩
  | illegal w rest why hh hr hy hd ht => exact .inr (.inr (ht ▸ ⟨rfl, rfl, rfl, rfl, rfl, rfl⟩))
  | data b rest hh hr ho ht => exact .inr (.inr (ht ▸ ⟨rfl, rfl, rfl, rfl, rfl, rfl⟩))
  | take rest hh hr ht =>
    exact .inr (.inr (ht ▸ { takeMove_keepsWorking (s.setHost rest) with }))
  | rest hh hr hp hd ht => exact .inr (.inr (ht ▸ ⟨rfl, rfl, rfl, rfl, rfl, rfl⟩))

end Sys2Proof.Machine
end

section
/-! The message a state holds: which operations keep it and which extend it (rules R35, R100). -/

namespace Sys2Proof.Machine

/-- The empty message is held after INIT, whatever stale bytes the buffer has (R87, R88). -/
theorem startMessage_holds (s : State) : s.startMessage.Holds [] :=
  ⟨rfl, rfl, rfl, rfl⟩

/-- UPDATE appends the bytes it takes to the message held. -/
theorem State.Holds.update {s : State} {M : List Byte} (hM : s.Holds M) {n : Nat}
    (hl : 8 * (M.length + n) < 2 ^ 64) (hn : n ≤ s.dataIn.length) :
    (s.update n).Holds (M ++ s.dataIn.take n) := by
  obtain ⟨hh, -, hbuf, htail, -, -, hbits, -⟩ :=
    update_spec n s (holds_bufLen_le hM) (by rw [hM.bitLen_eq]; omega) hn
  have hlen : (M ++ s.dataIn.take n).length = M.length + n := by simp [hn]
  have hmod : (s.bufLen.toNat + n) % 64 = (M.length + n) % 64 := by rw [hM.bufLen_eq]; omega
  have hdiv : 64 * ((M.length + n) / 64) =
      64 * (M.length / 64) + 64 * ((s.bufLen.toNat + n) / 64) := by rw [hM.bufLen_eq]; omega
  refine ⟨?_, ?_, ?_, ?_⟩
  · rw [hbuf, hmod, hlen]
  · have hX : s.memRead 0 s.bufLen.toNat = M.drop (64 * (M.length / 64)) := by
      rw [hM.bufLen_eq, hM.tail_eq]
    rw [hlen, ← hmod, htail, hX, hdiv, ← List.drop_drop,
      List.drop_append_of_le_length (i := 64 * (M.length / 64)) (Nat.mul_div_le _ _)]
  · rw [hbits, hM.bitLen_eq, hlen]; omega
  · rw [hh, hashBlocks_holds hM]

/-- Settles O19: the checks pass, since BIT_LEN is 8·|M|, and the effect appends the bytes taken. -/
theorem updateExtendsMessage : Obligations.UpdateExtendsMessage := by
  intro s M n hr ho hM hl hn
  have hbits : s.bitLen.toNat + 8 * n < 2 ^ 64 := by rw [hM.bitLen_eq]; omega
  exact ⟨s.update n, execUpdate_effect hr ho (holds_bufLen_le hM) hbits hn, hM.update hl hn, rfl⟩

/-- Whether some message is held depends on the working state alone. -/
theorem KeepsWorking.holdsSome {s t : State} (hk : KeepsWorking s t) (hs : s.HoldsSome) :
    t.HoldsSome := fun ho => by
  obtain ⟨M, hM⟩ := hs (hk.phase ▸ ho)
  exact ⟨M, by rw [hk.bufLen]; exact hM.bufLen_eq,
    by rw [State.memRead, hk.buf]; exact hM.tail_eq,
    by rw [hk.bitLen]; exact hM.bitLen_eq, by rw [hk.h]; exact hM.h_eq⟩

/-- Every command keeps it that an open phase holds a message: INIT opens the empty one, UPDATE extends
the one held, FINAL closes it, and a fault or a wait leaves it. -/
theorem exec_holdsSome {i : Instr} {s t : State} (h : exec i s = .next t) (hs : s.HoldsSome) :
    t.HoldsSome := by
  rcases exec_next h with ⟨-, rfl⟩ | ⟨n, -, ho, -, hl, hn, rfl⟩ | ⟨-, -, -, rfl⟩ | hk
  · exact fun _ => ⟨[], startMessage_holds s⟩
  · obtain ⟨M, hM⟩ := hs ho
    rw [hM.bitLen_eq] at hl
    exact fun _ => ⟨_, hM.update (by omega) hn⟩
  · exact fun ho => by cases ho
  · exact hk.holdsSome hs

/-- Settles O39: commands by `exec_holdsSome`, power-on reset opens no message, and every other step
leaves the message alone. -/
theorem stepKeepsMessageInvariant : Obligations.StepKeepsMessageInvariant := by
  intro s t hs h
  rcases step_working h with ⟨i, u, hk, he⟩ | ⟨-, u, rfl⟩ | hk
  · exact exec_holdsSome he (hk.holdsSome hs)
  · exact fun ho => by cases ho
  · exact hk.holdsSome hs

end Sys2Proof.Machine
end

section
/-! The writers of H (rule R17) and the transitions of PHASE (rule R23). -/

namespace Sys2Proof.Machine

/-- H and the count of COMPRESS calls move from `s` to `t` by COMPRESS on some 64-byte blocks, possibly
none, and by nothing else. -/
def HashedOn (s t : State) : Prop :=
  ∃ blocks : List (List Byte), (∀ B ∈ blocks, B.length = 64) ∧
    t.h = blocks.foldl compress s.h ∧ t.compressCalls = s.compressCalls + blocks.length

theorem KeepsWorking.hashedOn {s t : State} (hk : KeepsWorking s t) : HashedOn s t :=
  ⟨[], by simp, hk.h, hk.compressCalls⟩

theorem KeepsWorking.trans_hashedOn {s u t : State} (hk : KeepsWorking s u) (h : HashedOn u t) :
    HashedOn s t := by
  unfold HashedOn at h
  rwa [hk.h, hk.compressCalls] at h

theorem hashedOn_of_hashBlocks {s t : State} {d : List Byte} (hh : t.h = hashBlocks s.h d)
    (hc : t.compressCalls = s.compressCalls + d.length / 64) : HashedOn s t :=
  ⟨blocksOf (d.length / 64) d, blocksOf_block_length (Nat.mul_div_le _ _), hh,
    by rw [hc, blocksOf_length]⟩

/-- UPDATE hashes on by the whole blocks of the buffered tail and its data (R99). -/
theorem update_hashedOn {n : Nat} {s : State} (hb : s.bufLen.toNat ≤ 63)
    (hl : s.bitLen.toNat + 8 * n < 2 ^ 64) (hn : n ≤ s.dataIn.length) : HashedOn s (s.update n) := by
  obtain ⟨hh, hc, -⟩ := update_spec n s hb hl hn
  exact hashedOn_of_hashBlocks hh (by simpa [hn] using hc)

/-- FINAL hashes on by the one or two blocks of the padded tail (R109). -/
theorem finalize_hashedOn {s : State} (hb : s.bufLen.toNat ≤ 63) : HashedOn s s.finalize := by
  obtain ⟨hh, -, hc, -⟩ := finalize_spec s hb
  refine hashedOn_of_hashBlocks hh ?_
  rw [hc]
  congr 1
  split
  · next h => simp [padding, padZeros_high h hb]; omega
  · next h => simp [padding, padZeros_low (show s.bufLen.toNat ≤ 55 by omega)]; omega

/-- A command that answers a next state is INIT, or it writes H by COMPRESS alone. -/
theorem exec_hashedOn {i : Instr} {s t : State} (h : exec i s = .next t) :
    (t.h = iv ∧ t.phase = .initialized) ∨ HashedOn s t := by
  rcases exec_next h with ⟨-, rfl⟩ | ⟨n, -, -, hb, hl, hn, rfl⟩ | ⟨-, -, hb, rfl⟩ | hk
  · exact .inl ⟨rfl, rfl⟩
  · exact .inr (update_hashedOn hb hl hn)
  · exact .inr (finalize_hashedOn hb)
  · exact .inr hk.hashedOn

/-- Settles O40: commands by `exec_hashedOn`; of the host's moves only power-on reset writes H. -/
theorem writersOfWorkingState : Obligations.WritersOfWorkingState := by
  intro s t h
  rcases step_working h with ⟨i, u, hk, he⟩ | ⟨hn, u, rfl⟩ | hk
  · exact (exec_hashedOn he).imp_right fun h => .inr (hk.trans_hashedOn h)
  · exact .inr (.inl ⟨hn, rfl⟩)
  · exact .inr (.inr hk.hashedOn)

/-- Settles O41: in the open phases the checks pass and the commands take effect; in the other two both
commands record the violation and leave PHASE. -/
theorem phaseTransitions : Obligations.PhaseTransitions := by
  intro s hr
  refine ⟨⟨s.startMessage, execInit_effect hr, rfl⟩, fun hphase hb => ?_, fun hphase => ?_⟩
  · have ho : s.phase.isOpen = true := by rcases hphase with h | h <;> rw [h] <;> rfl
    obtain ⟨-, -, -, -, -, -, -, -, -, -, -, hfault, -⟩ := finalize_spec s hb
    refine ⟨fun n hl hn => ⟨s.update n, execUpdate_effect hr ho hb hl hn, rfl, ?_⟩,
      s.finalize, execFinal_effect hr ho hb, rfl, hfault.trans hr.2⟩
    obtain ⟨-, -, -, -, -, -, -, -, -, -, hfault, -⟩ := update_spec n s hb hl hn
    exact hfault.trans hr.2
  · have ho : s.phase.isOpen = false := by rcases hphase with h | h <;> rw [h] <;> rfl
    have hcode (cmd : Instr) : (s.raise (.contractViolation s.phase cmd)).fault.code = 2 := by
      rw [State.raise_fault, if_pos hr.2]; rfl
    exact ⟨fun n => ⟨_, execUpdate_closed hr ho, rfl, hcode _⟩,
      _, execFinal_closed hr ho, rfl, hcode _⟩

end Sys2Proof.Machine
end

section
/-! Stale buffer bytes are unobservable (rule R36): every command keeps `State.AgreeLive`. -/

namespace Sys2Proof.Machine

theorem SameBesidesHash.symm {s t : State} (h : SameBesidesHash s t) : SameBesidesHash t s :=
  ⟨h.1.symm, h.2.symm, h.3.symm, h.4.symm, h.5.symm, h.6.symm, h.7.symm, h.8.symm, h.9.symm,
    h.10.symm⟩

/-- MemRead of the first bytes determines each of them. -/
theorem Memory.read_eq_of_readBytes_eq {m m' : Memory} {n a : Nat}
    (h : m.readBytes 0 n = m'.readBytes 0 n) (ha : a < n) : m.read a = m'.read a := by
  simpa using List.map_inj_left.1 h a (List.mem_range.2 ha)

namespace State.AgreeLive

variable {s s' : State}

theorem sameBesidesHash (h : s.AgreeLive s') : SameBesidesHash s s' := by
  rw [h.same_besides_buf]; constructor <;> rfl

theorem h_eq (h : s.AgreeLive s') : s'.h = s.h := by rw [h.same_besides_buf]

theorem bufLen_eq (h : s.AgreeLive s') : s'.bufLen = s.bufLen := by rw [h.same_besides_buf]

theorem compressCalls_eq (h : s.AgreeLive s') : s'.compressCalls = s.compressCalls := by
  rw [h.same_besides_buf]

theorem running_iff (h : s.AgreeLive s') : s'.running ↔ s.running := by
  rw [State.running, State.running, h.sameBesidesHash.halted, h.sameBesidesHash.fault]

/-- The live bytes are read alike. -/
theorem memRead_eq (h : s.AgreeLive s') (hb : s.bufLen.toNat ≤ 63) :
    s'.memRead 0 s'.bufLen.toNat = s.memRead 0 s.bufLen.toNat := by
  rw [h.bufLen_eq]
  exact Memory.readBytes_congr fun x _ hx => h.live_eq x (by omega) (by omega)

/-- Agreement from its parts, where the bytes that must agree are given as one MemRead. -/
theorem of_readBytes (hs : SameBesidesHash s s') (hh : s'.h = s.h) (hlen : s'.bufLen = s.bufLen)
    (hc : s'.compressCalls = s.compressCalls) {n : Nat} (hn : min 64 s.bufLen.toNat ≤ n)
    (hread : s'.memRead 0 n = s.memRead 0 n) : s.AgreeLive s' where
  same_besides_buf := by
    obtain ⟨h1, h2, h3, h4, h5, h6, h7, h8, h9, h10⟩ := hs
    cases s; cases s'
    simp only at *
    subst_vars
    rfl
  live_eq a ha ha' := Memory.read_eq_of_readBytes_eq hread (by omega)

/-- An operation that writes the same whatever BUF holds, and makes no more of BUF live, keeps the
agreement. -/
theorem map (h : s.AgreeLive s') (f : State → State)
    (hf : ∀ (u : State) (m : Memory), f { u with buf := m } = { f u with buf := m })
    (hlen : (f s).bufLen.toNat ≤ s.bufLen.toNat) : (f s).AgreeLive (f s') where
  same_besides_buf := by rw [h.same_besides_buf, hf]
  live_eq a ha ha' := by
    have hbuf (u : State) : (f u).buf = u.buf := by simpa using congrArg State.buf (hf u u.buf)
    rw [hbuf, hbuf]
    exact h.live_eq a ha (by omega)

/-- Absorbing hashes and keeps the live bytes and the data alone. -/
theorem absorb (h : s.AgreeLive s') (hb : s.bufLen.toNat ≤ 63) (d : List Byte) :
    (s.absorb d).AgreeLive (s'.absorb d) := by
  obtain ⟨hsame, hh, hc, hlen, htail, -⟩ := absorb_spec d s hb
  obtain ⟨hsame', hh', hc', hlen', htail', -⟩ := absorb_spec d s' (by rwa [h.bufLen_eq])
  rw [h.memRead_eq hb] at hh' htail'
  rw [h.bufLen_eq] at hc' hlen' htail'
  exact of_readBytes (hsame.symm.trans (h.sameBesidesHash.trans hsame'))
    (by rw [hh', hh, h.h_eq]) (BitVec.eq_of_toNat_eq (hlen'.trans hlen.symm))
    (by rw [hc', hc, h.compressCalls_eq]) (by rw [hlen]; exact Nat.min_le_right _ _)
    (htail'.trans htail.symm)

theorem update (h : s.AgreeLive s') (hb : s.bufLen.toNat ≤ 63) (n : Nat) :
    (s.update n).AgreeLive (s'.update n) := by
  have hdata : s'.recvData n = s.recvData n := by
    rw [State.recvData, h.sameBesidesHash.dataIn, State.recvData]
  have hbits := h.map (fun u => (u.recv n).addBits n) (fun _ _ => rfl) le_rfl
  unfold State.update
  rw [hdata]
  exact (hbits.absorb hb _).map (·.setPhase .accumulating) (fun _ _ => rfl) le_rfl

/-- FINAL writes every byte of BUF, by the live bytes and BIT_LEN alone; both draws are the same, the
counts of draws being equal (assumption log 8). -/
theorem finalize (h : s.AgreeLive s') (hb : s.bufLen.toNat ≤ 63) :
    s.finalize.AgreeLive s'.finalize := by
  obtain ⟨bitLen, halted, phase, fault, pending, dataIn, digestOut, host, received, draws⟩ :=
    h.sameBesidesHash
  obtain ⟨hh, hout, hc, hread, -, hlen, -, hdraws, hphase, hbits, hhalt, hfault, hpend, hdata, hhost,
    hrec⟩ := finalize_spec s hb
  obtain ⟨hh', hout', hc', hread', -, hlen', -, hdraws', hphase', hbits', hhalt', hfault', hpend',
    hdata', hhost', hrec'⟩ := finalize_spec s' (by rwa [h.bufLen_eq])
  rw [h.memRead_eq hb, h.bufLen_eq, bitLen] at hh' hread'
  rw [h.h_eq] at hh'
  have hheq : s'.finalize.h = s.finalize.h := hh'.trans hh.symm
  refine of_readBytes ?_ hheq (by rw [hlen', hlen, draws])
    (by rw [hc', hc, h.compressCalls_eq, h.bufLen_eq]) (Nat.min_le_left _ _)
    (hread'.trans hread.symm)
  exact {
    bitLen := by rw [hbits', hbits, bitLen]
    halted := by rw [hhalt', hhalt, halted]
    phase := hphase'.trans hphase.symm
    fault := by rw [hfault', hfault, fault]
    pending := by rw [hpend', hpend, pending]
    dataIn := by rw [hdata', hdata, dataIn]
    digestOut := by rw [hout', hout, hheq, digestOut]
    host := by rw [hhost', hhost, host]
    received := by rw [hrec', hrec, received]
    draws := by rw [hdraws', hdraws, draws] }

/-- Every check of a command reads the two states alike, so both take the same branch. -/
theorem exec_next (h : s.AgreeLive s') {i : Instr} {t : State} (he : exec i s = .next t) :
    ∃ t', exec i s' = .next t' ∧ t.AgreeLive t' := by
  obtain ⟨m, rfl⟩ : ∃ m, s' = { s with buf := m } := ⟨_, h.same_besides_buf⟩
  cases i with
  | init =>
    obtain ⟨hr, rfl⟩ := execInit_next he
    exact ⟨_, execInit_effect hr, h.map (·.startMessage) (fun _ _ => rfl) (by simp)⟩
  | update n =>
    obtain ⟨hr, ⟨ho, rfl⟩ | ⟨ho, hb, rfl⟩ | ⟨ho, hb, hl, rfl⟩ | ⟨ho, hb, hl, hn, rfl⟩ |
      ⟨ho, hb, hl, hn, rfl⟩⟩ := execUpdate_next he
    · exact ⟨_, execUpdate_closed hr ho,
        h.map (fun u => u.raise (.contractViolation u.phase (.update n))) (fun _ _ => rfl) le_rfl⟩
    · exact ⟨_, execUpdate_corrupt hr ho hb,
        h.map (fun u => u.abort (.invariantAbort u.bufLen)) (fun _ _ => rfl) le_rfl⟩
    · exact ⟨_, execUpdate_overflow hr ho hb hl,
        h.map (fun u => u.raise (.lengthOverflow u.bitLen n)) (fun _ _ => rfl) le_rfl⟩
    · exact ⟨_, execUpdate_waits hr ho hb hl hn,
        h.map (·.awaitData (.update n)) (fun _ _ => rfl) le_rfl⟩
    · exact ⟨_, execUpdate_effect hr ho hb hl hn, h.update hb n⟩
  | final =>
    obtain ⟨hr, ⟨ho, rfl⟩ | ⟨ho, hb, rfl⟩ | ⟨ho, hb, rfl⟩⟩ := execFinal_next he
    · exact ⟨_, execFinal_closed hr ho,
        h.map (fun u => u.raise (.contractViolation u.phase .final)) (fun _ _ => rfl) le_rfl⟩
    · exact ⟨_, execFinal_corrupt hr ho hb,
        h.map (fun u => u.abort (.invariantAbort u.bufLen)) (fun _ _ => rfl) le_rfl⟩
    · exact ⟨_, execFinal_effect hr ho hb, h.finalize hb⟩

end State.AgreeLive

/-- Settles O43: a running engine answers a next state by `AgreeLive.exec_next`; the stop of one that is
not running is named by HALTED and FAULT, which the two states share. -/
theorem staleBytesAreUnobservable : Obligations.StaleBytesAreUnobservable := by
  intro s s' h i
  refine ⟨fun t he => ?_, fun f he => ?_, fun r he => ?_⟩
  · obtain ⟨t', he', ht⟩ := h.exec_next he
    exact ⟨t', he', ht, ht.sameBesidesHash.digestOut⟩
  · by_cases hr : s.running
    · obtain ⟨t, ht⟩ := exec_running hr i
      simp [ht] at he
    · rw [exec_not_running hr] at he
      rw [exec_not_running (mt h.running_iff.1 hr), h.sameBesidesHash.halted, h.sameBesidesHash.fault,
        he]
  · by_cases hr : s.running
    · obtain ⟨t, ht⟩ := exec_running hr i
      simp [ht] at he
    · simp [exec_not_running hr] at he

end Sys2Proof.Machine
end

section
/-! Steps that run a command (rules R52, R54, R102). -/

namespace Sys2Proof.Machine

/-- Only a legal descriptor stands for a command (R64). -/
theorem decoded_of_toInstr {d : Decoded} {i : Instr} (h : d.toInstr = some i) : d = .command i := by
  cases d with
  | command j => exact congrArg _ (Option.some.inj h)
  | illegal why => cases h

/-- The stop of an engine that is not running stands before a command already, so asking for it once
more before `exec` changes nothing (R25, R126). -/
theorem taken_eq_exec {s : State} {k : State → Host.Outcome State Fault Refusal} {i : Instr}
    (h : s.running → k s = exec i s) : s.taken k = exec i s := by
  rcases taken_cases s k with ⟨hr, he⟩ | ⟨hh, he⟩ | ⟨hh, hf, he⟩
  · exact he.trans (h hr)
  · rw [he, exec_not_running (by simp [hh]), if_pos hh]
  · rw [he, exec_not_running (by simp [hf]), if_neg (by simp [hh])]

/-- A legal descriptor that is the host's next move runs its command, where none is in flight and no
digest byte is left to take; a stopped engine answers the stop (R54, R147). -/
theorem step_command {s : State} {w : Descriptor} {rest : List HostMove} {i : Instr}
    (hh : s.host = .command w :: rest) (hp : s.pending = none) (hd : s.digestOut = [])
    (hw : decode w = .command i) : step s = exec i (s.setHost rest) := by
  rw [step_hostMove hh (by simp [hp])]
  refine taken_eq_exec fun hr => ?_
  have hy : (s.setHost rest).ready = true := (ready_iff _).2 ⟨hr.1, hp, hd⟩
  rw [commandMove, if_pos hy, runDescriptor, hw]

/-- Settles O6: a descriptor by `step_command`, a command in flight by `step_inFlight`. -/
theorem stepRunsDecodedCommand : Obligations.StepRunsDecodedCommand := by
  refine ⟨fun s w rest i hy hh hw => ?_, fun s i hp hd hn => step_inFlight hp hd hn,
    fun s w i hw => ?_⟩
  · obtain ⟨-, hp, hd⟩ := (ready_iff s).1 hy
    exact step_command hh hp hd hw
  · exact step_command (s := s.withFetchWord 64 w) rfl rfl rfl (decoded_of_toInstr hw)

end Sys2Proof.Machine
end

section
/-! The channels: the host takes what FINAL emitted, and which commands use them (rules R42, R43,
R114). -/

namespace Sys2Proof.Machine

theorem takeMove_cons {s : State} {b : Byte} {d : List Byte} (h : s.digestOut = b :: d) :
    takeMove s = { s with digestOut := d, received := s.received ++ [b] } := by
  rw [takeMove, h]

/-- A running engine with no command in flight hands the host its oldest digest byte. -/
theorem step_take {s : State} {rest : List HostMove} {b : Byte} {d : List Byte} (hr : s.running)
    (hp : s.pending = none) (hd : s.digestOut = b :: d) (hh : s.host = .take :: rest) :
    step s = .next { s with digestOut := d, received := s.received ++ [b], host := rest } := by
  have hr' : (s.setHost rest).running := hr
  have hd' : (s.setHost rest).digestOut = b :: d := hd
  rw [step_hostMove hh (by simp [hp]), hostMove, taken_running hr', takeMove_cons hd']
  rfl

/-- As many takes as there are digest bytes move them all, first emitted first. -/
theorem run_takes (d : List Byte) {s : State} {rest : List HostMove} (hr : s.running)
    (hp : s.pending = none) (hd : s.digestOut = d)
    (hh : s.host = List.replicate d.length .take ++ rest) :
    Sys2Proof.core.run d.length s =
      .next { s with digestOut := [], received := s.received ++ d, host := rest } := by
  induction d generalizing s with
  | nil =>
    obtain rfl : s.host = rest := hh
    rw [List.append_nil]
    exact (run_zero s).trans (by rw [← hd])
  | cons b d ih =>
    rw [List.length_cons, List.replicate_succ, List.cons_append] at hh
    have htail := ih (s := { s with
      digestOut := d
      received := s.received ++ [b]
      host := List.replicate d.length .take ++ rest }) hr hp rfl rfl
    rw [List.append_assoc, List.singleton_append] at htail
    exact (run_succ _ (step_take hr hp hd hh)).trans htail

/-- Settles O10, by induction on the bytes left to take. -/
theorem digestIsTakenInOrder : Obligations.DigestIsTakenInOrder :=
  fun s _ hr hp hh => run_takes s.digestOut hr hp rfl hh

/-- Settles O42: UPDATE's effect takes its n bytes, FINAL's emits the digest, and every other answer of
a command leaves both channels alone. -/
theorem channelsBelongToTheirCommands : Obligations.ChannelsBelongToTheirCommands := by
  intro i s t h
  cases i with
  | init =>
    obtain ⟨-, rfl⟩ := execInit_next h
    exact ⟨.inl rfl, .inl rfl⟩
  | update n =>
    obtain ⟨-, ⟨-, rfl⟩ | ⟨-, -, rfl⟩ | ⟨-, -, -, rfl⟩ | ⟨-, -, -, -, rfl⟩ | ⟨-, hb, hl, hn, rfl⟩⟩ :=
      execUpdate_next h
    case inr.inr.inr.inr =>
      obtain ⟨-, -, -, -, -, -, -, -, hin, -, -, -, hout, -⟩ := update_spec n s hb hl hn
      exact ⟨.inr ⟨n, rfl, hn, hin⟩, .inl hout⟩
    all_goals exact ⟨.inl rfl, .inl rfl⟩
  | final =>
    obtain ⟨-, ⟨-, rfl⟩ | ⟨-, -, rfl⟩ | ⟨-, hb, rfl⟩⟩ := execFinal_next h
    case inr.inr =>
      obtain ⟨-, hout, -, -, -, -, -, -, -, -, -, -, -, hin, -⟩ := finalize_spec s hb
      exact ⟨.inl hin, .inr ⟨rfl, _, digestBytes_length _, hout⟩⟩
    all_goals exact ⟨.inl rfl, .inl rfl⟩

end Sys2Proof.Machine
end

section
/-! Byte order in the length field and in the digest (rules R12, R45, R46, R110). -/

namespace Sys2Proof.Machine

theorem be32bytes_getD (w : Word) {j : Nat} (hj : j < 4) :
    (be32bytes w).getD j 0 = w.extractLsb' (24 - 8 * j) 8 := by
  interval_cases j <;> rfl

/-- A byte of a 32-bit field of `v` is a byte of `v`. -/
theorem extractLsb'_byte_of_field (v : BitVec 64) (a : Nat) {b : Nat} (h : b + 8 ≤ 32) :
    (v.extractLsb' a 32).extractLsb' b 8 = v.extractLsb' (a + b) 8 := by
  ext i hi
  simp [Nat.add_assoc, show b + i < 32 by omega]

/-- Byte `k` lies in the high word for `k < 4` and in the low word from there on. -/
theorem be64bytes_getD (v : BitVec 64) {k : Nat} (hk : k < 8) :
    (be64bytes v).getD k 0 = v.extractLsb' (56 - 8 * k) 8 := by
  rw [be64bytes]
  by_cases h : k < 4
  · rw [List.getD_append _ _ _ _ h, be32bytes_getD _ h, extractLsb'_byte_of_field _ _ (by omega)]
    congr 1; omega
  · rw [List.getD_append_right _ _ _ _ (Nat.not_lt.1 h), be32bytes_length,
      be32bytes_getD _ (by omega), extractLsb'_byte_of_field _ _ (by omega)]
    congr 1; omega

/-- Bytes 4i to 4i + 3 of words put one after the other are those of word `i`. -/
theorem flatMap_be32bytes_getD (ws : List Word) {i j : Nat} (hi : i < ws.length) (hj : j < 4) :
    (ws.flatMap be32bytes).getD (4 * i + j) 0 = ws[i].extractLsb' (24 - 8 * j) 8 := by
  induction ws generalizing i with
  | nil => cases hi
  | cons w ws ih =>
    rw [List.flatMap_cons]
    cases i with
    | zero =>
      rw [Nat.mul_zero, Nat.zero_add, List.getD_append _ _ _ _ hj, be32bytes_getD _ hj]
      rfl
    | succ i =>
      rw [List.getD_append_right _ _ _ _ (by rw [be32bytes_length]; omega), be32bytes_length,
        show 4 * (i + 1) + j - 4 = 4 * i + j by omega, ih (Nat.lt_of_succ_lt_succ hi)]
      rfl

theorem digestBytes_getD (H : HashState) (i : Fin 8) (j : Fin 4) :
    (digestBytes H).getD (4 * i.val + j.val) 0 = H[i].extractLsb' (24 - 8 * j.val) 8 := by
  rw [digestBytes, flatMap_be32bytes_getD _ (by simp) j.isLt]
  simp

/-- The last bytes FINAL writes to BUF are the length field (R107). -/
theorem finalize_buf (s : State) :
    s.finalize.buf = s.appendMarker.extraBlock.zeroFill.buf.writeBytes 56 (be64bytes s.bitLen) := by
  simp [State.finalize, State.writeLength]

/-- Settles O22: the length field is written last and be64bytes is big-endian. -/
theorem lengthFieldIsBigEndian : Obligations.LengthFieldIsBigEndian := by
  intro s hr ho hb
  obtain ⟨-, -, -, -, -, -, -, -, -, hbits, -⟩ := finalize_spec s hb
  refine ⟨s.finalize, execFinal_effect hr ho hb, hbits, fun k hk => ?_⟩
  rw [finalize_buf, Memory.read_writeBytes _ _ _ (by omega),
    if_pos (by rw [be64bytes_length]; omega), Nat.add_sub_cancel_left, be64bytes_getD _ hk]

/-- Settles O23: what FINAL emits is the `digestBytes` of the H it leaves. -/
theorem digestIsBigEndian : Obligations.DigestIsBigEndian := by
  intro s hr ho hb
  obtain ⟨-, hout, -⟩ := finalize_spec s hb
  exact ⟨s.finalize, _, execFinal_effect hr ho hb, hout, digestBytes_length _, digestBytes_getD _⟩

end Sys2Proof.Machine
end

section
/-! Several engines (rules R26, R51, R55, R136). -/

namespace Sys2Proof.Machine

/-- A platform step leaves the other engines as they are (R55). -/
theorem Platform.step_frame {n : Nat} {p q : Platform n} {i : Fin n} (h : p.step i = .next q) :
    Sys2Proof.Machine.step p.engines[i] = .next q.engines[i] ∧
      ∀ j : Fin n, j ≠ i → q.engines[j] = p.engines[j] := by
  obtain ⟨t, ht, rfl⟩ := Platform.step_next.1 h
  refine ⟨by simpa using ht, fun j hj => ?_⟩
  have hne : (i : Nat) ≠ j := fun e => hj (Fin.ext e.symm)
  simp [hne]

/-- Settles O44: each step writes its own engine, and writes of two engines commute. -/
theorem enginesAreIndependent : Obligations.EnginesAreIndependent := by
  intro n p q i h
  obtain ⟨hi, hframe⟩ := Platform.step_frame h
  refine ⟨hi, hframe, fun j r hj h' => ?_⟩
  obtain ⟨t, ht, rfl⟩ := Platform.step_next.1 h
  obtain ⟨u, hu, rfl⟩ := Platform.step_next.1 h'
  rw [hframe j hj] at hu
  have hfirst : p.step j = .next ⟨p.engines.set j u⟩ := Platform.step_next.2 ⟨u, hu, rfl⟩
  refine ⟨_, hfirst, Platform.step_next.2 ⟨t, ?_, ?_⟩⟩
  · rw [(Platform.step_frame hfirst).2 i hj.symm, ht]
  · rw [Vector.set_comm _ _ fun e => hj (Fin.ext e.symm)]

/-- Moves issued one after the other reach each engine in their order. -/
theorem foldl_issue_engines {n : Nat} (moves : List (Fin n × HostMove)) (p : Platform n) (i : Fin n) :
    (moves.foldl (fun q im => q.issue im.1 im.2) p).engines[i] =
      p.engines[i].setHost
        (p.engines[i].host ++ (moves.filter (fun im => im.1 = i)).map Prod.snd) := by
  induction moves generalizing p with
  | nil => simp [State.setHost]
  | cons im moves ih =>
    rw [List.foldl_cons, ih, Platform.issue_engines]
    by_cases h : im.1 = i <;> simp [h, State.setHost]

/-- Settles O54, by induction on the moves the access is bound to. -/
theorem accessReachesItsEngines : Obligations.AccessReachesItsEngines := by
  intro Access Mem n binding a mem p
  refine ⟨fun i => foldl_issue_engines _ p i, List.map_congr_left fun io _ => ?_⟩
  obtain ⟨i, _ | _⟩ := io <;> rfl

end Sys2Proof.Machine
end

section
/-! The decoder, one equation per row of the opcode table, and `encode` as its inverse (rules R56 to
R64). -/

namespace Sys2Proof

variable {w : Descriptor}

theorem decode_of_rsvd (h : rsvdField w ≠ 0) : decode w = .illegal .reservedBits := if_pos h

theorem decode_of_init (hr : rsvdField w = 0) (ho : opField w = 1) :
    decode w = if lenField w = 0 then .command .init else .illegal .lengthNotZero := by
  simp [decode, hr, ho]

theorem decode_of_update (hr : rsvdField w = 0) (ho : opField w = 2) :
    decode w = .command (.update (lenField w).toNat) := by
  simp [decode, hr, ho]

theorem decode_of_final (hr : rsvdField w = 0) (ho : opField w = 3) :
    decode w = if lenField w = 0 then .command .final else .illegal .lengthNotZero := by
  simp [decode, hr, ho]

/-- The sixteen values of OP are those of the three commands and the reserved ones (R57). -/
theorem op_reserved_iff (op : BitVec 4) :
    op = 0 ∨ 4 ≤ op.toNat ↔ op ≠ 1 ∧ op ≠ 2 ∧ op ≠ 3 := by
  decide +revert

theorem decode_of_reservedOp (hr : rsvdField w = 0) (ho : opField w = 0 ∨ 4 ≤ (opField w).toNat) :
    decode w = .illegal .reservedOp := by
  obtain ⟨h1, h2, h3⟩ := (op_reserved_iff _).1 ho
  simp only [decode, hr, h1, h2, h3, ne_eq, not_true, false_and, or_self, if_false]

/-- Settles O1: decoding reads off the fields that encoding put there. -/
theorem decodeEncodeRoundTrip : Obligations.DecodeEncodeRoundTrip := by
  intro i hi
  cases i with
  | init =>
    obtain ⟨hr, ho, hl⟩ := Laws.EncodedFields.init
    rw [decode_of_init hr ho, if_pos hl]
  | update n =>
    obtain ⟨hr, ho, hl⟩ := Laws.EncodedFields.update n
    rw [decode_of_update hr ho, hl hi]
  | final =>
    obtain ⟨hr, ho, hl⟩ := Laws.EncodedFields.final
    rw [decode_of_final hr ho, if_pos hl]

/-- The descriptor of a decoded command is rebuilt from its own fields (R62). -/
theorem encode_of_decode {i : Instr} (h : decode w = .command i) : encode i = w := by
  by_cases hr : rsvdField w = 0
  case neg => rw [decode_of_rsvd hr] at h; cases h
  rw [← packFields_fields hr]
  by_cases h1 : opField w = 1
  · rw [decode_of_init hr h1] at h
    split_ifs at h with hl
    cases h
    rw [h1, hl, encode]
  by_cases h2 : opField w = 2
  · rw [decode_of_update hr h2] at h
    cases h
    rw [h2, encode, BitVec.ofNat_toNat, BitVec.setWidth_eq]
  by_cases h3 : opField w = 3
  · rw [decode_of_final hr h3] at h
    split_ifs at h with hl
    cases h
    rw [h3, hl, encode]
  · rw [decode_of_reservedOp hr ((op_reserved_iff _).2 ⟨h1, h2, h3⟩)] at h
    cases h

/-- Settles O2: a decoded command fits its field and is packed from the descriptor's fields. -/
theorem encodeDecodeRoundTrip : Obligations.EncodeDecodeRoundTrip :=
  fun _ _ h => ⟨decode_command_wf h, encode_of_decode h⟩

/-- What decodes to a command is exactly its encoding. -/
theorem decode_eq_command_iff {i : Instr} : decode w = .command i ↔ i.wf = true ∧ encode i = w :=
  ⟨encodeDecodeRoundTrip w i, fun ⟨hi, he⟩ => he ▸ decodeEncodeRoundTrip i hi⟩

theorem decode_eq_init_iff : decode w = .command .init ↔ w = 0x0000000000000001 := by
  rw [decode_eq_command_iff, show encode .init = 1 by decide, eq_comm (a := 1)]
  exact and_iff_right rfl

theorem decode_eq_final_iff : decode w = .command .final ↔ w = 0x0000000000000003 := by
  rw [decode_eq_command_iff, show encode .final = 3 by decide, eq_comm (a := 3)]
  exact and_iff_right rfl

theorem encode_update_toNat {n : Nat} (hn : n ≤ 2 ^ 32 - 1) :
    (encode (.update n)).toNat = n * 2 ^ 32 + 2 := by
  rw [encode, packFields_toNat, BitVec.toNat_ofNat, Nat.mod_eq_of_lt (by omega)]
  rfl

theorem decode_eq_update_iff {n : Nat} :
    decode w = .command (.update n) ↔ w.toNat % 2 ^ 32 = 2 ∧ n = w.toNat / 2 ^ 32 := by
  have hw := w.isLt
  rw [decode_eq_command_iff, Instr.wf, decide_eq_true_iff]
  constructor
  · rintro ⟨hn, rfl⟩
    rw [encode_update_toNat hn]
    omega
  · rintro ⟨h2, hn⟩
    have hle : n ≤ 2 ^ 32 - 1 := by omega
    refine ⟨hle, BitVec.eq_of_toNat_eq ?_⟩
    rw [encode_update_toNat hle]
    omega

/-- Settles O3: a descriptor that decodes to a command is one of the three the last clause excludes. -/
theorem decoderReadsExactDescriptors : Obligations.DecoderReadsExactDescriptors := by
  refine fun w => ⟨decode_eq_init_iff, decode_eq_final_iff, fun n => decode_eq_update_iff,
    fun h1 h3 h2 => ?_⟩
  cases h : decode w with
  | illegal why => exact ⟨why, rfl⟩
  | command i =>
    cases i with
    | init => exact absurd (decode_eq_init_iff.1 h) h1
    | update n => exact absurd (decode_eq_update_iff.1 h).1 h2
    | final => exact absurd (decode_eq_final_iff.1 h) h3

/-- Where the decoder asks for LEN = 0, the descriptor is illegal exactly when LEN is not (R61). -/
theorem toInstr_ite_eq_none_iff {p : Prop} [Decidable p] {i : Instr} {why : IllegalReason} :
    (if p then Decoded.command i else .illegal why).toInstr = none ↔ ¬ p := by
  by_cases hp : p <;> simp [hp, Decoded.toInstr]

/-- The clauses of R61: where none holds, the three rows of the opcode table are left. -/
theorem toInstr_decode_eq_none_iff :
    (decode w).toInstr = none ↔
      rsvdField w ≠ 0 ∨ opField w = 0 ∨ 4 ≤ (opField w).toNat ∨
        (opField w = 1 ∧ lenField w ≠ 0) ∨ (opField w = 3 ∧ lenField w ≠ 0) := by
  by_cases hr : rsvdField w = 0
  case neg => exact iff_of_true (by rw [decode_of_rsvd hr]; rfl) (.inl hr)
  by_cases h1 : opField w = 1
  · rw [decode_of_init hr h1, toInstr_ite_eq_none_iff]
    simp [hr, h1]
  by_cases h2 : opField w = 2
  · rw [decode_of_update hr h2]
    simp [hr, h2, Decoded.toInstr]
  by_cases h3 : opField w = 3
  · rw [decode_of_final hr h3, toInstr_ite_eq_none_iff]
    simp [hr, h3]
  · have ho := (op_reserved_iff (opField w)).2 ⟨h1, h2, h3⟩
    exact iff_of_true (by rw [decode_of_reservedOp hr ho]; rfl) (.inr (or_assoc.1 (.inl ho)))

theorem illegal_of_toInstr {d : Decoded} (h : d.toInstr = none) : ∃ why, d = .illegal why := by
  cases d with
  | command i => cases h
  | illegal why => exact ⟨why, rfl⟩

end Sys2Proof

namespace Sys2Proof.Machine

/-- A descriptor that is the host's next move reaches a running, ready engine's decoder (R54, R147). -/
theorem step_descriptor {s : State} {w : Descriptor} {rest : List HostMove} (hs : s.running)
    (hr : s.ready = true) (hh : s.host = .command w :: rest) :
    step s = runDescriptor w (s.setHost rest) := by
  have hs' : (s.setHost rest).running := hs
  have hr' : (s.setHost rest).ready = true := hr
  obtain ⟨-, hp, -⟩ := (ready_iff s).1 hr
  rw [step_hostMove hh (by simp [hp]), hostMove, taken_running hs', commandMove, if_pos hr']

/-- In a running state no fault stands recorded, so the one raised is (R25, R118). -/
theorem State.raise_of_running {s : State} (hs : s.running) (r : FaultRecord) :
    s.raise r = { s with fault := r } := by
  rw [State.raise, if_pos hs.2]

theorem runDescriptor_illegal {s : State} {w : Descriptor} (hs : s.running)
    (hw : (decode w).toInstr = none) :
    runDescriptor w s = .next { s with fault := .illegalCommand w } := by
  obtain ⟨why, hd⟩ := illegal_of_toInstr hw
  rw [runDescriptor, hd, taken_running hs, State.raise_of_running hs]

/-- Settles O4: the clauses of R61 by the decoder's equations, and the record by the step's. -/
theorem illegalDescriptorIsRecorded : Obligations.IllegalDescriptorIsRecorded := by
  refine fun w => ⟨toInstr_decode_eq_none_iff, fun s rest hs hr hh hw => ?_⟩
  exact (step_descriptor hs hr hh).trans (runDescriptor_illegal (s := s.setHost rest) hs hw)

end Sys2Proof.Machine
end

section
/-! The assembler's UPDATEs (rules R65, R67). -/

namespace Sys2Proof.Machine

/-- Settles O52: the descriptor is the encoding of a count that fits LEN. -/
theorem assembledUpdateCarriesItsData : Obligations.AssembledUpdateCarriesItsData := by
  refine fun atoms => ⟨fun h => ⟨⟨encode (.update (literalBytes atoms).length), literalBytes atoms⟩,
    ?_, rfl, decodeEncodeRoundTrip _ (decide_eq_true h)⟩, fun h => ?_⟩
  · rw [assembleLine, assembleUpdate, if_pos (show _ ≤ maxUpdateBytes from h)]
    rfl
  · rw [assembleLine, assembleUpdate, if_neg (show ¬ _ ≤ maxUpdateBytes from Nat.not_le.2 h)]
    rfl

theorem hashPieces_length (k : Nat) (d : List Byte) : (hashPieces k d).length = k + 1 := by
  induction k generalizing d with
  | zero => rfl
  | succ k ih => rw [hashPieces, List.length_cons, ih]

theorem hashPieces_ne_nil (k : Nat) (d : List Byte) : hashPieces k d ≠ [] :=
  List.ne_nil_of_length_pos (by rw [hashPieces_length]; omega)

theorem hashPieces_flatten (k : Nat) (d : List Byte) : (hashPieces k d).flatten = d := by
  induction k generalizing d with
  | zero => rw [hashPieces, List.flatten_singleton]
  | succ k ih => rw [hashPieces, List.flatten_cons, ih, List.take_append_drop]

/-- Where the data reaches that far, every piece but the last is full. -/
theorem length_of_mem_dropLast_hashPieces {k : Nat} {d p : List Byte} (h : k * maxUpdateBytes ≤ d.length)
    (hp : p ∈ (hashPieces k d).dropLast) : p.length = maxUpdateBytes := by
  induction k generalizing d with
  | zero => cases hp
  | succ k ih =>
    rw [Nat.succ_mul] at h
    rw [hashPieces, List.dropLast_cons_of_ne_nil (hashPieces_ne_nil _ _), List.mem_cons] at hp
    obtain rfl | hp := hp
    · exact List.length_take_of_le (by omega)
    · exact ih (by rw [List.length_drop]; omega) hp

/-- Where the data goes no further, every piece fits one UPDATE. -/
theorem length_le_of_mem_hashPieces {k : Nat} {d p : List Byte} (h : d.length ≤ (k + 1) * maxUpdateBytes)
    (hp : p ∈ hashPieces k d) : p.length ≤ maxUpdateBytes := by
  induction k generalizing d with
  | zero =>
    obtain rfl := List.mem_singleton.1 hp
    omega
  | succ k ih =>
    rw [Nat.succ_mul] at h
    rw [hashPieces, List.mem_cons] at hp
    obtain rfl | hp := hp
    · exact List.length_take_le _ _
    · exact ih (by rw [List.length_drop]; omega) hp

/-- A list of pieces of at most `m` bytes holds at most `m` times its length. -/
theorem length_flatten_le {m : Nat} {l : List (List Byte)} (h : ∀ d ∈ l, d.length ≤ m) :
    l.flatten.length ≤ l.length * m := by
  rw [List.length_flatten, ← List.length_map (f := List.length)]
  exact List.sum_le_card_nsmul _ m (List.forall_mem_map.2 h)

/-- Settles O51: HASH cuts after ⌊(|data| − 1) / (2^32 − 1)⌋ full pieces, which leaves at most one more,
and any split into pieces that fit is at least as long. -/
theorem hashExpandsToFewestUpdates : Obligations.HashExpandsToFewestUpdates := by
  intro data
  have hm : 0 < maxUpdateBytes := by decide
  have hfull : (data.length - 1) / maxUpdateBytes * maxUpdateBytes ≤ data.length - 1 :=
    Nat.div_mul_le_self _ _
  have hrest : data.length - 1 < ((data.length - 1) / maxUpdateBytes + 1) * maxUpdateBytes :=
    Nat.lt_mul_of_div_lt (Nat.lt_succ_self _) hm
  refine ⟨hashPieces ((data.length - 1) / maxUpdateBytes) data, rfl, hashPieces_flatten _ _,
    hashPieces_ne_nil _ _, fun p hp => length_of_mem_dropLast_hashPieces (by omega) hp,
    fun p hp => length_le_of_mem_hashPieces (by omega) hp, fun other hne hflat hle => ?_,
    fun hle => ?_⟩
  · have hlen : data.length ≤ other.length * maxUpdateBytes := hflat ▸ length_flatten_le hle
    have hpos : 0 < other.length * maxUpdateBytes := Nat.mul_pos (List.length_pos_of_ne_nil hne) hm
    rw [hashPieces_length, Nat.succ_le_iff, Nat.div_lt_iff_lt_mul hm]
    omega
  · have hle' : data.length ≤ maxUpdateBytes := hle
    rw [Nat.div_eq_of_lt (by omega), hashPieces]

end Sys2Proof.Machine
end

section
/-! The functions of the transform: what they do to the bits of their words (rules R68 to R73). -/

namespace Sys2Proof.Machine

/-- Ch picks, bit by bit, from `y` or from `z` by the bit of `x` (R68). -/
theorem choose_getLsbD (x y z : Word) {i : Nat} (hi : i < 32) :
    (choose x y z).getLsbD i = if x.getLsbD i then y.getLsbD i else z.getLsbD i := by
  rw [choose, BitVec.getLsbD_xor, BitVec.getLsbD_and, BitVec.getLsbD_and, BitVec.getLsbD_not]
  cases x.getLsbD i <;> simp [hi]

/-- A bit of Maj is set where at least two of the three bits are (R69). -/
theorem majority_getLsbD (x y z : Word) (i : Nat) :
    (majority x y z).getLsbD i =
      decide (2 ≤ (x.getLsbD i).toNat + (y.getLsbD i).toNat + (z.getLsbD i).toNat) := by
  simp only [majority, BitVec.getLsbD_xor, BitVec.getLsbD_and]
  generalize x.getLsbD i = p, y.getLsbD i = q, z.getLsbD i = r
  decide +revert

/-- The word of all ones masks nothing. -/
theorem ones_and (y : Word) : 0xFFFFFFFF#32 &&& y = y := BitVec.allOnes_and

theorem choose_ones (y z : Word) : choose 0xFFFFFFFF y z = y := by
  simp [choose, ones_and]

theorem choose_zero (y z : Word) : choose 0 y z = z := by
  simp [choose, ones_and]

theorem majority_ones_zero (y : Word) : majority 0xFFFFFFFF y 0 = y := by
  simp [majority, ones_and]

/-- Two equal arguments outvote the third. -/
theorem majority_self (x z : Word) : majority x x z = x := by
  rw [majority, BitVec.and_self, BitVec.xor_assoc, BitVec.xor_self, BitVec.xor_zero]

/-- Settles O45: the bit-by-bit readings and the corner cases above; the examples are evaluated. -/
theorem chooseAndMajority : Obligations.ChooseAndMajority :=
  ⟨fun x y z => ⟨rfl, rfl, fun _ hi => choose_getLsbD x y z hi, fun i _ => majority_getLsbD x y z i,
    choose_ones y z, choose_zero y z, majority_ones_zero y, majority_self x z⟩,
    by decide, by decide⟩

/-- ROTR is the library's rotation (R11). -/
theorem rotr_eq_rotateRight (x : Word) {k : Nat} (hk : k < 32) : rotr x k = x.rotateRight k := by
  rw [rotr, BitVec.rotateRight_def, Nat.mod_eq_of_lt hk]

/-- An exclusive or of three rotations, as Σ0 and Σ1 are (R70, R71). -/
theorem rotr_xor_rotr_xor_rotr (x : Word) {j k l : Nat} (hj : j < 32) (hk : k < 32) (hl : l < 32) :
    rotr x j ^^^ rotr x k ^^^ rotr x l =
      x.rotateRight j ^^^ x.rotateRight k ^^^ x.rotateRight l := by
  rw [rotr_eq_rotateRight x hj, rotr_eq_rotateRight x hk, rotr_eq_rotateRight x hl]

/-- An exclusive or of two rotations and a shift, as σ0 and σ1 are (R72, R73). -/
theorem rotr_xor_rotr_xor_shr (x : Word) {j k : Nat} (l : Nat) (hj : j < 32) (hk : k < 32) :
    rotr x j ^^^ rotr x k ^^^ shr x l = x.rotateRight j ^^^ x.rotateRight k ^^^ x >>> l := by
  rw [rotr_eq_rotateRight x hj, rotr_eq_rotateRight x hk, shr]

/-- Settles O46: every ROTR is a rotation; the corner cases and the examples are evaluated. -/
theorem mixingFunctions : Obligations.MixingFunctions := by
  refine ⟨fun x => ⟨?_, ?_, ?_, ?_⟩, by decide, by decide, by decide, by decide⟩
  · exact rotr_xor_rotr_xor_rotr x (by decide) (by decide) (by decide)
  · exact rotr_xor_rotr_xor_rotr x (by decide) (by decide) (by decide)
  · exact rotr_xor_rotr_xor_shr x 3 (by decide) (by decide)
  · exact rotr_xor_rotr_xor_shr x 10 (by decide) (by decide)

end Sys2Proof.Machine
end

section
/-! The message schedule and the 64 rounds of COMPRESS (rules R76 to R81). -/

namespace Sys2Proof.Machine

theorem schedule_length (B : List Byte) : (schedule B).length = 64 :=
  (extendSchedule_spec 48 _ (by simp)).1.trans (by simp)

/-- W[0..15] are the words of the block (R76). -/
theorem schedule_getD_of_lt (B : List Byte) {t : Nat} (ht : t < 16) :
    (schedule B).getD t 0 = blockWord B t := by
  obtain ⟨-, hkept, -⟩ := extendSchedule_spec 48 ((List.range 16).map (blockWord B)) (by simp)
  rw [schedule, hkept t (by simpa using ht), List.getD_eq_getElem _ _ (by simpa using ht),
    List.getElem_map, List.getElem_range]

/-- W[16..63] follow the recurrence of R77. -/
theorem schedule_getD_of_ge (B : List Byte) {t : Nat} (h16 : 16 ≤ t) (h64 : t < 64) :
    (schedule B).getD t 0 =
      smallSigma1 ((schedule B).getD (t - 2) 0) + (schedule B).getD (t - 7) 0 +
        smallSigma0 ((schedule B).getD (t - 15) 0) + (schedule B).getD (t - 16) 0 := by
  obtain ⟨-, -, hnew⟩ := extendSchedule_spec 48 ((List.range 16).map (blockWord B)) (by simp)
  exact hnew t (by simpa using h16) (by simpa using h64)

/-- The first word past the block, from four words of the block. -/
theorem schedule_getD_sixteen (B : List Byte) :
    (schedule B).getD 16 0 =
      smallSigma1 (blockWord B 14) + blockWord B 9 + smallSigma0 (blockWord B 1) + blockWord B 0 := by
  rw [schedule_getD_of_ge B (by decide) (by decide), schedule_getD_of_lt B (by decide),
    schedule_getD_of_lt B (by decide), schedule_getD_of_lt B (by decide),
    schedule_getD_of_lt B (by decide)]

/-- Where the words of the block are zero, the recurrence gives nothing but zeros. -/
theorem schedule_getD_eq_zero {B : List Byte} (hB : ∀ t < 16, blockWord B t = 0) {t : Nat}
    (ht : t < 64) : (schedule B).getD t 0 = 0 := by
  induction t using Nat.strong_induction_on with
  | h t ih =>
    by_cases h : t < 16
    · rw [schedule_getD_of_lt B h, hB t h]
    · rw [schedule_getD_of_ge B (by omega) ht, ih (t - 2) (by omega) (by omega),
        ih (t - 7) (by omega) (by omega), ih (t - 15) (by omega) (by omega),
        ih (t - 16) (by omega) (by omega)]
      decide

/-- Settles O47: the extension keeps the block's words and adds 48 by the recurrence; the values at 16
come from four block words, and the last word of the example is evaluated. -/
theorem scheduleRecurrence : Obligations.ScheduleRecurrence := by
  refine ⟨fun B => ⟨schedule_length B, fun t ht => ?_, fun t => schedule_getD_of_ge B⟩,
    fun t => schedule_getD_eq_zero (by decide), ?_, ?_, by decide +kernel⟩
  · rw [schedule_getD_of_lt B ht, blockWord, be32_toNat]
  · rw [schedule_getD_sixteen]
    decide
  · rw [schedule_getD_sixteen]
    decide

/-- Settles O48: the rounds as a sequence of working variables, and the feed-forward of the last. -/
theorem compressRunsSixtyFourRounds : Obligations.CompressRunsSixtyFourRounds := by
  intro H B
  obtain ⟨v, hseed, hround, hlast⟩ := runRounds_spec (seedVars H) (schedule B) (schedule_length B)
  refine ⟨v, hseed, hround, ?_⟩
  rw [compress, ← hlast, feedForward]

end Sys2Proof.Machine
end

section
/-! INIT twice is INIT once, and the only command legal in UNINIT and FINALIZED (rule R89). -/

namespace Sys2Proof.Machine

/-- INIT's writes do not depend on what it overwrites. -/
theorem State.startMessage_startMessage (s : State) : s.startMessage.startMessage = s.startMessage := rfl

/-- INIT keeps HALTED and FAULT, so the engine can take the next command. -/
theorem State.startMessage_running {s : State} (hr : s.running) : s.startMessage.running := hr

theorem Phase.isOpen_eq_false {p : Phase} (h : p = .uninit ∨ p = .finalized) : p.isOpen = false := by
  rcases h with rfl | rfl <;> rfl

/-- After a raise some fault is recorded, the one raised or an earlier one (R118). -/
theorem State.raise_fault_ne_none (s : State) {r : FaultRecord} (hr : r ≠ .none) :
    (s.raise r).fault ≠ .none := by
  rw [State.raise_fault]
  split_ifs with h
  · exact hr
  · exact h

/-- Settles O12: INIT takes effect in every running state and writes constants alone; in the two closed
phases UPDATE and FINAL raise the contract violation. -/
theorem initIsIdempotent : Obligations.InitIsIdempotent := by
  refine ⟨fun s hr => ?_, fun s s' t t' h h' => ?_, fun s hr hphase => ?_⟩
  · have htwice : exec .init s.startMessage = .next s.startMessage := by
      rw [execInit_effect (State.startMessage_running hr), State.startMessage_startMessage]
    exact ⟨s.startMessage, execInit_effect hr, htwice, hr.2, rfl⟩
  · obtain ⟨-, rfl⟩ := execInit_next h
    obtain ⟨-, rfl⟩ := execInit_next h'
    exact ⟨rfl, rfl, rfl, rfl⟩
  · have hclosed := Phase.isOpen_eq_false hphase
    exact ⟨fun n => ⟨_, execUpdate_closed hr hclosed, s.raise_fault_ne_none nofun⟩,
      _, execFinal_closed hr hclosed, s.raise_fault_ne_none nofun⟩

end Sys2Proof.Machine
end

section
/-! UPDATE answered in each of its cases, and its closed form at the corners: the wait, the bit count,
a partial block and the empty UPDATE (rules R92, R93, R98, R102). -/

namespace Sys2Proof.Machine

/-- While a command is in flight the engine is not READY (R26, R102). -/
theorem awaitData_ready (s : State) (i : Instr) : (s.awaitData i).ready = false := by
  simp [State.ready]

/-- Settles O18: with the checks passed, the missing data is what stops the command. -/
theorem updateWaitsForData : Obligations.UpdateWaitsForData :=
  fun s n hr ho hb hl hn => ⟨execUpdate_waits hr ho hb hl hn, awaitData_ready s (.update n)⟩

/-- Settles O15: the effect adds without wrapping, and the check before it catches a sum that would. -/
theorem bitCountIsExact : Obligations.BitCountIsExact := by
  refine fun s n hr ho hb => ⟨fun hl hn => ?_, fun hl => ?_⟩
  · obtain ⟨-, -, -, -, -, -, hbits, -⟩ := update_spec n s hb hl hn
    exact ⟨s.update n, execUpdate_effect hr ho hb hl hn, hbits⟩
  · rw [execUpdate_overflow hr ho hb hl, State.raise_of_running hr]

/-- Settles O13: the closed form of UPDATE, its blocks counted by the length of BUF[0..b−1] ‖ D. -/
theorem updateAbsorbsBlocks : Obligations.UpdateAbsorbsBlocks := by
  intro s n hr ho hb hl hn
  obtain ⟨hh, hcalls, hlen, htail, -, -, hbits, hphase, hdata, -⟩ := update_spec n s hb hl hn
  have hX : (s.memRead 0 s.bufLen.toNat ++ s.dataIn.take n).length = s.bufLen.toNat + n := by
    simp [hn]
  rw [hashBlocks, hX] at hh
  exact ⟨s.update n, execUpdate_effect hr ho hb hl hn, hcalls, hlen, hh, htail, hbits, hdata, hphase⟩

/-- An UPDATE whose data is there and that leaves no fault recorded has taken effect: its other answers
are a fault, the abort and the wait. -/
theorem execUpdate_next_effect {n : Nat} {s t : State} (h : exec (.update n) s = .next t)
    (hf : t.fault = .none) (hn : n ≤ s.dataIn.length) :
    s.bufLen.toNat ≤ 63 ∧ s.bitLen.toNat + 8 * n < 2 ^ 64 ∧ t = s.update n := by
  obtain ⟨-, ⟨-, rfl⟩ | ⟨-, -, rfl⟩ | ⟨-, -, -, rfl⟩ | ⟨-, -, -, hlt, -⟩ | ⟨-, hb, hl, -, rfl⟩⟩ :=
    execUpdate_next h
  · exact absurd hf (s.raise_fault_ne_none nofun)
  · exact absurd hf (s.raise_fault_ne_none nofun)
  · exact absurd hf (s.raise_fault_ne_none nofun)
  · exact absurd hn (Nat.not_le.2 hlt)
  · exact ⟨hb, hl, rfl⟩

/-- Settles O14: the frame part of UPDATE's closed form. -/
theorem updateFrame : Obligations.UpdateFrame := by
  intro s t n h hf hn
  obtain ⟨hb, hl, rfl⟩ := execUpdate_next_effect h hf hn
  obtain ⟨-, -, -, -, -, hread, -, -, -, hhalted, hfault, hpending, hout, hhost, hreceived, hdraws⟩ :=
    update_spec n s hb hl hn
  refine ⟨hhalted, hfault, hpending, hout, hhost, hreceived, hdraws, fun a ha hc => hread a ha ?_⟩
  split at hc
  case isTrue hlt => exact .inl ⟨hlt, hc⟩
  case isFalse hge => exact .inr ⟨Nat.not_lt.1 hge, hc⟩

theorem Memory.readBytes_getD (m : Memory) (a : Nat) {n i : Nat} (hi : i < n) :
    (m.readBytes a n).getD i 0 = m.read (a + i) := by
  simp [Memory.readBytes, hi]

/-- The stored bytes of a block that stays partial are those of BUF[0..b+n−1], which the closed form of
UPDATE gives whole. -/
theorem update_read_stored {s : State} {n i : Nat} (hl : s.bitLen.toNat + 8 * n < 2 ^ 64)
    (hn : n ≤ s.dataIn.length) (hlt : s.bufLen.toNat + n < 64) (hi : i < n) :
    (s.update n).buf.read (s.bufLen.toNat + i) = s.dataIn.getD i 0 := by
  obtain ⟨-, -, -, htail, -⟩ := update_spec n s (by omega) hl hn
  rw [Nat.mod_eq_of_lt hlt, Nat.div_eq_of_lt hlt, Nat.mul_zero, List.drop_zero] at htail
  have hread := Memory.readBytes_getD (s.update n).buf 0 (n := s.bufLen.toNat + n)
    (i := s.bufLen.toNat + i) (by omega)
  rw [Nat.zero_add] at hread
  rw [← hread, ← State.memRead, htail, List.getD_append_right _ _ _ _ (by simp), State.memRead_length,
    Nat.add_sub_cancel_left, List.getD_eq_getElem?_getD, List.getElem?_take_of_lt hi,
    ← List.getD_eq_getElem?_getD]

/-- Settles O16: BUF[0..b−1] ‖ D is shorter than a block, so it is not hashed and is the tail left. -/
theorem partialBlockStaysPartial : Obligations.PartialBlockStaysPartial := by
  intro s n hr ho hl hn hpos hlt
  have hb : s.bufLen.toNat ≤ 63 := by omega
  obtain ⟨hh, hcalls, hlen, -, -, hread, -⟩ := update_spec n s hb hl hn
  rw [Nat.mod_eq_of_lt hlt] at hlen
  rw [Nat.div_eq_of_lt hlt, Nat.add_zero] at hcalls
  rw [hashBlocks_short _ (by simp [hn, hlt])] at hh
  exact ⟨s.update n, execUpdate_effect hr ho hb hl hn, hlen, by omega, hh, hcalls,
    fun _ hi => update_read_stored hl hn hlt hi, fun a ha hc => hread a ha (.inl ⟨hlt, hc⟩)⟩

/-- A MemWrite of no bytes changes no address. -/
theorem Memory.read_writeBytes_nil (m : Memory) (a : Nat) {x : Nat} (hx : x < 64) :
    (m.writeBytes a []).read x = m.read x :=
  Memory.read_writeBytes_outside m a [] hx (Nat.lt_or_ge x a)

theorem Memory.writeBytes_nil {m : Memory} (hm : m.wf) (a : Nat) : m.writeBytes a [] = m :=
  Memory.ext_of_read (Memory.writeBytes_wf _ _ _) hm fun _ hx => Memory.read_writeBytes_nil m a hx

theorem State.setBufLen_bufLen_toNat (s : State) : s.setBufLen s.bufLen.toNat = s := by
  rw [State.setBufLen, BitVec.ofNat_toNat, BitVec.setWidth_eq]

/-- Absorbing no data stores no byte and keeps BUF_LEN: by the tail of step 4 where b = 0 (R96), by step 2
otherwise (R93). -/
theorem State.absorb_nil {s : State} (hb : s.bufLen.toNat ≤ 63) :
    s.absorb [] = s.memWrite s.bufLen.toNat [] := by
  have hset := (s.memWrite s.bufLen.toNat []).setBufLen_bufLen_toNat
  rw [State.memWrite_bufLen] at hset
  by_cases h0 : s.bufLen.toNat = 0
  · rw [h0] at hset ⊢
    exact (if_pos h0).trans hset
  · have hneed : ([] : List Byte).length < 64 - s.bufLen.toNat := by rw [List.length_nil]; omega
    exact ((if_neg h0).trans (if_pos hneed)).trans hset

/-- The empty UPDATE sets PHASE (R98). -/
theorem State.update_zero {s : State} (hb : s.bufLen.toNat ≤ 63) :
    s.update 0 = (s.memWrite s.bufLen.toNat []).setPhase .accumulating := by
  have hbits : (s.recv 0).addBits 0 = s := by
    simp [State.recv, State.addBits]
  rw [State.update, hbits, State.recvData, List.take_zero, State.absorb_nil hb]

/-- Settles O17: BIT_LEN + 0 cannot overflow and no byte is missing, so the empty UPDATE takes effect. -/
theorem emptyUpdateChangesPhaseOnly : Obligations.EmptyUpdateChangesPhaseOnly := by
  intro s hr ho hb
  have he := execUpdate_effect (n := 0) hr ho hb s.bitLen.isLt (Nat.zero_le _)
  rw [State.update_zero hb] at he
  refine ⟨_, he, rfl, fun a ha => Memory.read_writeBytes_nil s.buf _ ha, fun hwf => ?_⟩
  rw [State.memWrite, Memory.writeBytes_nil hwf, State.setPhase]

end Sys2Proof.Machine
end

section
/-! A waiting UPDATE takes its missing bytes one by one and then takes effect (rules R48, R102). -/

namespace Sys2Proof.Machine

/-- A byte the UPDATE in flight still needs goes to the end of the data-in channel (R42, R102). -/
theorem step_data {s : State} {b : Byte} {rest : List HostMove} {n : Nat} (hr : s.running)
    (hh : s.host = .data b :: rest) (hp : s.pending = some (.update n)) (hlt : s.dataIn.length < n) :
    step s = .next { s with host := rest, dataIn := s.dataIn ++ [b] } := by
  have hwait : ∀ i, s.pending = some i → s.dataReady i = false ∨ s.resetNext = true := by
    intro i hi
    obtain rfl : Instr.update n = i := Option.some.inj (hp.symm.trans hi)
    exact .inl (decide_eq_false (Nat.not_le.2 hlt))
  have hr' : (s.setHost rest).running := hr
  have howes : (s.setHost rest).owesData = true := (owesData_iff _).2 ⟨n, hp, hlt⟩
  rw [step_hostMove hh hwait, hostMove, taken_running hr', sendMove, if_pos howes]
  rfl

/-- Bytes that the UPDATE in flight still needs all arrive, first sent first. -/
theorem run_data (ds : List Byte) {s : State} {rest : List HostMove} {n : Nat} (hr : s.running)
    (hp : s.pending = some (.update n)) (hle : s.dataIn.length + ds.length ≤ n)
    (hh : s.host = ds.map .data ++ rest) :
    Sys2Proof.core.run ds.length s = .next { s with host := rest, dataIn := s.dataIn ++ ds } := by
  induction ds generalizing s with
  | nil =>
    obtain rfl : s.host = rest := hh
    rw [List.append_nil]
    exact run_zero s
  | cons b ds ih =>
    rw [List.length_cons] at hle
    have htail := ih (s := { s with host := ds.map .data ++ rest, dataIn := s.dataIn ++ [b] }) hr hp
      (by rw [List.length_append, List.length_singleton]; omega) rfl
    rw [List.append_assoc, List.singleton_append] at htail
    exact (run_succ _ (step_data hr hh hp (by omega))).trans htail

/-- The UPDATE in flight whose data has arrived takes effect, unless the host resets the engine. -/
theorem step_update_inFlight {s : State} {n : Nat} (hr : s.running) (ho : s.phase.isOpen = true)
    (hb : s.bufLen.toNat ≤ 63) (hl : s.bitLen.toNat + 8 * n < 2 ^ 64)
    (hp : s.pending = some (.update n)) (hn : n ≤ s.dataIn.length)
    (hreset : s.host.head? ≠ some .powerOnReset) : step s = .next (s.clearPending.update n) := by
  have hreset' : s.resetNext = false := beq_false_of_ne hreset
  rw [step_inFlight hp (decide_eq_true hn) hreset']
  exact execUpdate_effect (s := s.clearPending) hr ho hb hl hn

/-- Settles O9: the missing bytes arrive, and the step after the last of them is the effect. -/
theorem waitingUpdateCompletes : Obligations.WaitingUpdateCompletes := by
  intro s n ds rest hr ho hb hl hp hlen hh hreset
  rw [run_add 1 (run_data ds hr hp hlen.le hh)]
  exact run_succ 0 (step_update_inFlight (s := { s with host := rest, dataIn := s.dataIn ++ ds })
    hr ho hb hl hp (by rw [List.length_append, hlen]) hreset)

end Sys2Proof.Machine
end

section
/-! Streaming: what INIT, UPDATEs and FINAL make of a message does not depend on where it is cut (rules
R35, R101, R113, R151). -/

namespace Sys2Proof.Machine

/-- BIT_LEN of a state that holds `M` is the bit count of its padding (R113). -/
theorem State.Holds.bitLen_eq_ofNat {s : State} {M : List Byte} (hM : s.Holds M) :
    s.bitLen = BitVec.ofNat 64 (8 * M.length) := by
  rw [← hM.bitLen_eq, BitVec.ofNat_toNat, BitVec.setWidth_eq]

/-- Two states that hold the same message agree on everything R35 fixes. -/
theorem State.Holds.unique {s s' : State} {M : List Byte} (hM : s.Holds M) (hM' : s'.Holds M) :
    s.h = s'.h ∧ s.bufLen = s'.bufLen ∧ s.bitLen = s'.bitLen ∧
      s.memRead 0 s.bufLen.toNat = s'.memRead 0 s'.bufLen.toNat := by
  refine ⟨hM.h_eq.trans hM'.h_eq.symm,
    BitVec.eq_of_toNat_eq (hM.bufLen_eq.trans hM'.bufLen_eq.symm),
    BitVec.eq_of_toNat_eq (hM.bitLen_eq.trans hM'.bitLen_eq.symm), ?_⟩
  rw [hM.bufLen_eq, hM'.bufLen_eq, hM.tail_eq, hM'.tail_eq]

/-- FINAL pads the tail as R113 pads the message, since the padding depends on the tail's length and the
bit count alone. -/
theorem State.Holds.finalize_h {s : State} {M : List Byte} (hM : s.Holds M) :
    s.finalize.h = hashBlocks iv (padded M) := by
  obtain ⟨hh, -⟩ := finalize_spec s (holds_bufLen_le hM)
  rw [hh, hashBlocks_holds hM, padded, hM.bitLen_eq_ofNat, hM.bufLen_eq, padding, padZeros_mod, padding]

/-- FINAL emits the digest of the message held. -/
theorem State.Holds.finalize_digestOut {s : State} {M : List Byte} (hM : s.Holds M) :
    s.finalize.digestOut = s.digestOut ++ sha256 M := by
  obtain ⟨-, hout, -⟩ := finalize_spec s (holds_bufLen_le hM)
  rw [hout, hM.finalize_h, sha256]

/-- From `s`, an INIT and UPDATEs have absorbed the first `k` bytes of its data-in channel: `t` holds
them, has made one COMPRESS call for each whole block of them (R151), and can take the next command. -/
structure Absorbed (s : State) (k : Nat) (t : State) : Prop where
  running : t.running
  isOpen : t.phase.isOpen = true
  holds : t.Holds (s.dataIn.take k)
  dataIn_eq : t.dataIn = s.dataIn.drop k
  digestOut_eq : t.digestOut = s.digestOut
  compressCalls_eq : t.compressCalls = s.compressCalls + k / 64

theorem absorbed_startMessage {s : State} (hr : s.running) : Absorbed s 0 s.startMessage where
  running := hr
  isOpen := rfl
  holds := startMessage_holds s
  dataIn_eq := rfl
  digestOut_eq := rfl
  compressCalls_eq := rfl

namespace Absorbed

variable {s t : State} {k : Nat}

/-- An UPDATE whose bytes are there and whose total fits absorbs them too. -/
theorem exec_update (h : Absorbed s k t) {n : Nat} (hn : k + n ≤ s.dataIn.length)
    (hl : 8 * (k + n) < 2 ^ 64) :
    exec (.update n) t = .next (t.update n) ∧ Absorbed s (k + n) (t.update n) := by
  have hk : (s.dataIn.take k).length = k := by rw [List.length_take]; omega
  have hb := holds_bufLen_le h.holds
  have hbits := h.holds.bitLen_eq
  have hlen := h.holds.bufLen_eq
  rw [hk] at hbits hlen
  have hbits' : t.bitLen.toNat + 8 * n < 2 ^ 64 := by omega
  have hn' : n ≤ t.dataIn.length := by rw [h.dataIn_eq, List.length_drop]; omega
  have hholds := h.holds.update (by rw [hk]; exact hl) hn'
  rw [h.dataIn_eq, ← List.take_add] at hholds
  obtain ⟨-, hcalls, -, -, -, -, -, -, hdata, hhalted, hfault, -, hout, -⟩ :=
    update_spec n t hb hbits' hn'
  refine ⟨execUpdate_effect h.running h.isOpen hb hbits' hn', ?_⟩
  exact {
    running := ⟨hhalted.trans h.running.1, hfault.trans h.running.2⟩
    isOpen := rfl
    holds := hholds
    dataIn_eq := by rw [hdata, h.dataIn_eq, List.drop_drop]
    digestOut_eq := hout.trans h.digestOut_eq
    compressCalls_eq := by rw [hcalls, h.compressCalls_eq, hlen]; omega }

/-- UPDATEs one after the other, by induction on their counts. -/
theorem execAll_updates (counts : List Nat) (h : Absorbed s k t)
    (hn : k + counts.sum ≤ s.dataIn.length) (hl : 8 * (k + counts.sum) < 2 ^ 64) :
    ∃ u, execAll (updates counts) t = .next u ∧ Absorbed s (k + counts.sum) u := by
  induction counts generalizing k t with
  | nil => exact ⟨t, rfl, h⟩
  | cons n counts ih =>
    rw [List.sum_cons, ← Nat.add_assoc] at hn hl ⊢
    obtain ⟨he, hu⟩ := h.exec_update (n := n) (by omega) (by omega)
    obtain ⟨u, hrest, hu'⟩ := ih hu hn hl
    refine ⟨u, ?_, hu'⟩
    rw [updates, List.map_cons, execAll, he]
    exact hrest

/-- FINAL after `k` bytes emits their digest, and the blocks of the padded message have then been
compressed, each once. -/
theorem exec_final (h : Absorbed s k t) (hk : k ≤ s.dataIn.length) :
    exec .final t = .next t.finalize ∧
      t.finalize.digestOut = s.digestOut ++ sha256 (s.dataIn.take k) ∧
      t.finalize.compressCalls = s.compressCalls + ((k + 8) / 64 + 1) := by
  have hb := holds_bufLen_le h.holds
  have hlen := h.holds.bufLen_eq
  rw [List.length_take_of_le hk] at hlen
  obtain ⟨-, -, hcalls, -⟩ := finalize_spec t hb
  refine ⟨execFinal_effect h.running h.isOpen hb,
    by rw [h.holds.finalize_digestOut, h.digestOut_eq], ?_⟩
  rw [hcalls, h.compressCalls_eq, hlen]
  split <;> omega

end Absorbed

/-- INIT and the UPDATEs of a split absorb as many bytes as the split counts. -/
theorem execAll_init_updates {s : State} (hr : s.running) (counts : List Nat)
    (hn : counts.sum ≤ s.dataIn.length) (hl : 8 * counts.sum < 2 ^ 64) :
    ∃ t, execAll (.init :: updates counts) s = .next t ∧ Absorbed s counts.sum t := by
  have h := (absorbed_startMessage hr).execAll_updates counts
  rw [Nat.zero_add] at h
  rw [execAll, execInit_effect hr]
  exact h hn hl

/-- Settles O25: both splits absorb the same bytes, and what FINAL answers depends on these alone. -/
theorem streamingEquivalence : Obligations.StreamingEquivalence := by
  intro s counts counts' hr _ _ hsum hn hl
  obtain ⟨t, he, ht⟩ := execAll_init_updates hr counts hn hl
  obtain ⟨t', he', ht'⟩ := execAll_init_updates hr counts' (hsum ▸ hn) (hsum ▸ hl)
  rw [← hsum] at ht'
  obtain ⟨hf, hout, hcalls⟩ := ht.exec_final hn
  obtain ⟨hf', hout', hcalls'⟩ := ht'.exec_final hn
  obtain ⟨hh, hlen, hbits, htail⟩ := ht.holds.unique ht'.holds
  exact ⟨t, t', t.finalize, t'.finalize, he, he', hf, hf', ht.holds, hh, hlen, hbits, htail, hout,
    hout'.trans hout.symm, hcalls, hcalls'.trans hcalls.symm⟩

end Sys2Proof.Machine
end

section
/-! FINAL's padding, its frame and the digest of a message (rules R103 to R113). -/

namespace Sys2Proof.Machine

/-- The zero bytes of the padding end a block: the tail's own where 0x80 and the length field still fit
behind it, and otherwise the next (R109). -/
theorem padZeros_eq {b : Nat} (hb : b ≤ 63) : padZeros b = if b ≤ 55 then 55 - b else 119 - b := by
  split
  case isTrue h => exact padZeros_low h
  case isFalse h => exact padZeros_high (Nat.not_le.1 h) hb

/-- After its last COMPRESS, FINAL writes no byte of BUF (R85, R108, R111). -/
theorem finalize_memRead (s : State) : s.finalize.memRead 0 64 = (finalBlock s).memRead 0 64 := by
  simp [State.finalize, State.memRead, finalBlock]

theorem finalize_memRead_low {s : State} (hb : s.bufLen.toNat ≤ 55) :
    s.finalize.memRead 0 64 =
      s.memRead 0 s.bufLen.toNat ++ padding s.bufLen.toNat s.bitLen := by
  obtain ⟨-, -, -, hread⟩ := finalBlock_low s hb
  rw [finalize_memRead, hread]

theorem finalize_memRead_high {s : State} (hb : 56 ≤ s.bufLen.toNat) (hb' : s.bufLen.toNat ≤ 63) :
    s.finalize.memRead 0 64 = List.replicate 56 0x00 ++ be64bytes s.bitLen := by
  obtain ⟨-, -, -, hread⟩ := finalBlock_high s hb hb'
  rw [finalize_memRead, hread]

/-- Settles O20: the closed form of FINAL, with the last block of each of the two paths. -/
theorem finalPadsAndEmits : Obligations.FinalPadsAndEmits := by
  intro s hr ho hb
  obtain ⟨hh, hout, hcalls, -, -, -, hlen, -, hphase, -⟩ := finalize_spec s hb
  have hP : s.memRead 0 s.bufLen.toNat ++ padding s.bufLen.toNat s.bitLen =
      s.memRead 0 s.bufLen.toNat ++ [0x80] ++ List.replicate (padZeros s.bufLen.toNat) 0x00 ++
        be64bytes s.bitLen := by
    simp only [padding, List.append_assoc]
  rw [hP] at hh
  refine ⟨s.finalize, padZeros s.bufLen.toNat, execFinal_effect hr ho hb, padZeros_eq hb, hh, ?_, hout,
    ?_, hlen, hphase⟩
  · rw [hcalls]
    split_ifs <;> omega
  · split
    case isTrue h => rw [finalize_memRead_low h, hP]
    case isFalse h => exact finalize_memRead_high (Nat.not_le.1 h) hb

/-- A FINAL that leaves no fault recorded has taken effect: its other answers are a fault and the
abort. -/
theorem execFinal_next_effect {s t : State} (h : exec .final s = .next t) (hf : t.fault = .none) :
    s.bufLen.toNat ≤ 63 ∧ t = s.finalize := by
  obtain ⟨-, ⟨-, rfl⟩ | ⟨-, -, rfl⟩ | ⟨-, hb, rfl⟩⟩ := execFinal_next h
  · exact absurd hf (s.raise_fault_ne_none nofun)
  · exact absurd hf (s.raise_fault_ne_none nofun)
  · exact ⟨hb, rfl⟩

/-- The last block begins with BUF[0..b−1] where it is the only one. -/
theorem finalize_read_live {s : State} {a : Nat} (hb : s.bufLen.toNat ≤ 55)
    (ha : a < s.bufLen.toNat) : s.finalize.buf.read a = s.buf.read a := by
  have hread := finalize_memRead_low hb
  rw [State.memRead, show 64 = s.bufLen.toNat + (64 - s.bufLen.toNat) by omega,
    Memory.readBytes_append] at hread
  exact Memory.read_eq_of_readBytes_eq (List.append_inj_left hread (by simp)) ha

/-- Settles O21: the frame part of FINAL's closed form, and the live bytes of a single last block. -/
theorem finalFrame : Obligations.FinalFrame := by
  intro s t h hf
  obtain ⟨hb, rfl⟩ := execFinal_next_effect h hf
  obtain ⟨-, -, -, -, -, -, -, -, -, hbits, hhalted, hfault, hpending, hdata, hhost, hreceived⟩ :=
    finalize_spec s hb
  exact ⟨hbits, hhalted, hfault, hpending, hdata, hhost, hreceived,
    fun _ _ ha hlow => finalize_read_live hlow ha⟩

/-- The padding of R113 adds at least nine bytes and ends at the first block boundary it can. -/
theorem padded_length (M : List Byte) : (padded M).length = 64 * ((M.length + 8) / 64 + 1) := by
  simp only [padded, padding, padZeros, List.length_append, List.length_replicate, List.length_singleton,
    be64bytes_length]
  omega

/-- Settles O24: FINAL pads the tail held as R113 pads the message. -/
theorem finalEmitsSha256 : Obligations.FinalEmitsSha256 := by
  intro s M hr ho hM
  exact ⟨padded_length M, s.finalize, execFinal_effect hr ho (holds_bufLen_le hM),
    hM.finalize_digestOut, rfl⟩

end Sys2Proof.Machine
end

section
/-! Faults and the abort: which one a command takes, and that nothing but FAULT and HALTED records it
(rules R118, R121, R122, R124, R125). -/

namespace Sys2Proof.Machine

/-- In a running state no fault stands recorded, so the abort records its own (R25, R122). -/
theorem State.abort_of_running {s : State} (hs : s.running) (r : FaultRecord) :
    s.abort r = { s with halted := true, fault := r } := by
  rw [State.abort, State.raise_of_running hs]

/-- UPDATE and FINAL, which are the commands besides INIT, in a closed phase (R121). -/
theorem exec_closed {i : Instr} {s : State} (hi : i ≠ .init) (hr : s.running)
    (ho : s.phase.isOpen = false) :
    exec i s = .next { s with fault := .contractViolation s.phase i } := by
  rw [← State.raise_of_running hr]
  cases i with
  | init => exact absurd rfl hi
  | update n => exact execUpdate_closed hr ho
  | final => exact execFinal_closed hr ho

/-- UPDATE and FINAL in an open phase with a corrupted buffer index (R122, R127). -/
theorem exec_corrupt {i : Instr} {s : State} (hi : i ≠ .init) (hr : s.running)
    (ho : s.phase.isOpen = true) (hb : 63 < s.bufLen.toNat) :
    exec i s = .next { s with halted := true, fault := .invariantAbort s.bufLen } := by
  rw [← State.abort_of_running hr]
  cases i with
  | init => exact absurd rfl hi
  | update n => exact execUpdate_corrupt hr ho hb
  | final => exact execFinal_corrupt hr ho hb

/-- UPDATE past the first two checks with a total that does not fit (R124). -/
theorem exec_overflow {n : Nat} {s : State} (hr : s.running) (ho : s.phase.isOpen = true)
    (hb : s.bufLen.toNat ≤ 63) (hl : 2 ^ 64 ≤ s.bitLen.toNat + 8 * n) :
    exec (.update n) s = .next { s with fault := .lengthOverflow s.bitLen n } := by
  rw [← State.raise_of_running hr]
  exact execUpdate_overflow hr ho hb hl

/-- A message held and the bytes of an UPDATE overflow BIT_LEN from 2^61 bytes on, since BIT_LEN counts
the message's bits exactly (R35, R124). -/
theorem State.Holds.lengthOverflows_iff {s : State} {M : List Byte} (hM : s.Holds M) (n : Nat) :
    s.lengthOverflows n = true ↔ 2 ^ 61 ≤ M.length + n := by
  rw [State.lengthOverflows, decide_eq_true_iff, hM.bitLen_eq]
  omega

/-- Settles O29: the check before BIT_LEN is written catches the total, and counts bytes in bits. -/
theorem lengthOverflowIsRecorded : Obligations.LengthOverflowIsRecorded :=
  fun _ n hr ho hb => ⟨exec_overflow hr ho hb, fun _ hM => hM.lengthOverflows_iff n⟩

/-- A command that answers a next state leaves the engine running (it has taken effect, or it waits for
data), or it has taken a fault, or the abort. The last two write FAULT and HALTED alone (R118). -/
theorem exec_next_running_or_fault {i : Instr} {s t : State} (h : exec i s = .next t) :
    t.running ∨ (∃ r : FaultRecord, r ≠ .none ∧ r.code ≠ 3 ∧ t = { s with fault := r }) ∨
      t = { s with halted := true, fault := .invariantAbort s.bufLen } := by
  cases i with
  | init =>
    obtain ⟨hr, rfl⟩ := execInit_next h
    exact .inl (State.startMessage_running hr)
  | update n =>
    obtain ⟨hr, ⟨-, rfl⟩ | ⟨-, -, rfl⟩ | ⟨-, -, -, rfl⟩ | ⟨-, -, -, -, rfl⟩ | ⟨-, hb, hl, hn, rfl⟩⟩ :=
      execUpdate_next h
    · exact .inr (.inl ⟨.contractViolation s.phase (.update n), nofun, by simp [FaultRecord.code],
        State.raise_of_running hr _⟩)
    · exact .inr (.inr (State.abort_of_running hr _))
    · exact .inr (.inl ⟨.lengthOverflow s.bitLen n, nofun, by simp [FaultRecord.code],
        State.raise_of_running hr _⟩)
    · exact .inl hr
    · obtain ⟨-, -, -, -, -, -, -, -, -, hhalted, hfault, -⟩ := update_spec n s hb hl hn
      exact .inl ⟨hhalted.trans hr.1, hfault.trans hr.2⟩
  | final =>
    obtain ⟨hr, ⟨-, rfl⟩ | ⟨-, -, rfl⟩ | ⟨-, hb, rfl⟩⟩ := execFinal_next h
    · exact .inr (.inl ⟨.contractViolation s.phase .final, nofun, by simp [FaultRecord.code],
        State.raise_of_running hr _⟩)
    · exact .inr (.inr (State.abort_of_running hr _))
    · obtain ⟨-, -, -, -, -, -, -, -, -, -, hhalted, hfault, -⟩ := finalize_spec s hb
      exact .inl ⟨hhalted.trans hr.1, hfault.trans hr.2⟩

/-- Only a running engine takes a command (R25, R126). -/
theorem running_of_exec_next {i : Instr} {s t : State} (h : exec i s = .next t) : s.running := by
  by_contra hr
  rw [exec_not_running hr] at h
  cases h

/-- Settles O30: with a fault recorded the command has taken a fault or the abort, and the engine is
stopped. -/
theorem faultsArePrecise : Obligations.FaultsArePrecise := by
  intro i s t h hf
  have hstop : ∀ j, ∃ f, exec j t = .fault f := exec_stopped fun hr => hf hr.2
  have hs : s.halted = false := (running_of_exec_next h).1
  obtain hr | ⟨r, -, hcode, rfl⟩ | rfl := exec_next_running_or_fault h
  · exact absurd hr.2 hf
  · exact ⟨rfl, iff_of_false (by simp [hs]) hcode, hstop⟩
  · exact ⟨rfl, iff_of_true rfl rfl, hstop⟩

/-- Settles O27: both phases are closed, and INIT does not write FAULT. -/
theorem contractViolationIsRecorded : Obligations.ContractViolationIsRecorded := by
  refine ⟨fun s n hr hphase => ?_, fun s t h => ?_⟩
  · have hclosed := Phase.isOpen_eq_false hphase
    exact ⟨exec_closed nofun hr hclosed, exec_closed nofun hr hclosed⟩
  · obtain ⟨-, rfl⟩ := execInit_next h
    rfl

/-- Settles O28: the abort is taken before any write. -/
theorem corruptIndexAborts : Obligations.CorruptIndexAborts :=
  fun _ _ hr ho hb => ⟨exec_corrupt nofun hr ho hb, exec_corrupt nofun hr ho hb⟩

end Sys2Proof.Machine
end

section
/-! A stopped engine takes no step but a power-on reset, and the order of a descriptor's checks (rules
R25, R125, R126). -/

namespace Sys2Proof.Machine

/-- What stands before every command and every move of the host but the reset. -/
theorem taken_not_running {s : State} (h : ¬ s.running)
    (k : State → Host.Outcome State Fault Refusal) :
    s.taken k = .fault (if s.halted then .halted else .faulted s.fault) :=
  (taken_eq_exec (i := .init) fun hr => absurd hr h).trans (exec_not_running h .init)

theorem hostStep_not_running {s : State} (h : ¬ s.running) (hn : s.resetNext = false) :
    hostStep s = .fault (if s.halted then .halted else .faulted s.fault) := by
  unfold hostStep
  split
  · exact taken_not_running h _
  · next m rest hh =>
    cases m with
    | powerOnReset => simp [State.resetNext, hh] at hn
    | command w => exact taken_not_running (s := s.setHost rest) h _
    | data b => exact taken_not_running (s := s.setHost rest) h _
    | take => exact taken_not_running (s := s.setHost rest) h fun s => .next (takeMove s)

/-- A stopped engine stops again, whether a command is in flight or the host would move (R25, R126). -/
theorem step_not_running {s : State} (h : ¬ s.running) (hn : s.resetNext = false) :
    step s = .fault (if s.halted then .halted else .faulted s.fault) := by
  by_cases hi : ∃ i, s.pending = some i ∧ s.dataReady i = true
  · obtain ⟨i, hp, hd⟩ := hi
    exact (step_inFlight hp hd hn).trans (exec_not_running (s := s.clearPending) h i)
  · have hwait : ∀ i, s.pending = some i → s.dataReady i = false ∨ s.resetNext = true :=
      fun i hp => .inl (Bool.eq_false_iff.2 fun hd => hi ⟨i, hp, hd⟩)
    exact (step_eq_hostStep hwait).trans (hostStep_not_running h hn)

theorem not_running_of_halted {s : State} (h : s.halted = true) : ¬ s.running :=
  fun hr => absurd (h.symm.trans hr.1) nofun

/-- Settles O32: the step of a stopped engine above; READY is 0 by R26's formula. -/
theorem stoppedTakesNoStep : Obligations.StoppedTakesNoStep := by
  refine ⟨fun s => step_not_running, fun s i hh => ⟨by simp [State.ready, hh], ?_⟩⟩
  rw [exec_not_running (not_running_of_halted hh), if_pos hh]

/-- Settles O31: a halted engine is stopped; a running and ready one decodes the descriptor, and what a
legal one answers is the command's first failing check. -/
theorem firstConditionWins : Obligations.FirstConditionWins := by
  refine fun s w rest hh => ⟨fun hhalt => ?_, fun hr hy => ⟨fun why hw => ?_, fun i hw hi => ?_⟩⟩
  · have hn : s.resetNext = false := by simp [State.resetNext, hh]
    rw [step_not_running (not_running_of_halted hhalt) hn, if_pos hhalt]
  · have hnone : (decode w).toInstr = none := by rw [hw, Decoded.toInstr]
    exact (step_descriptor hr hy hh).trans (runDescriptor_illegal (s := s.setHost rest) hr hnone)
  · obtain ⟨-, hp, hd⟩ := (ready_iff s).1 hy
    have hr' : (s.setHost rest).running := hr
    rw [step_command hh hp hd hw]
    refine ⟨exec_closed hi hr', exec_corrupt hi hr', ?_⟩
    rintro ho hb n rfl hl
    exact exec_overflow hr' ho hb hl

end Sys2Proof.Machine
end

section
/-! HALTED goes with the abort's record, and no run from reset reaches the abort (rules R122, R126). -/

namespace Sys2Proof.Machine

/-- A command that leaves the engine halted has taken the abort. -/
theorem exec_next_halted {i : Instr} {s t : State} (h : exec i s = .next t)
    (hh : t.halted = true) : t.fault.code = 3 := by
  obtain hr | ⟨r, -, -, rfl⟩ | rfl := exec_next_running_or_fault h
  · exact absurd hr (not_running_of_halted hh)
  · exact absurd (running_of_exec_next h) (not_running_of_halted hh)
  · rfl

theorem takeMove_halted (s : State) : (takeMove s).halted = s.halted := by
  unfold takeMove
  split <;> rfl

/-- A step that leaves the engine halted has run a command that took the abort: every other step is a
running engine's and keeps HALTED, or is a power-on reset. -/
theorem step_next_halted {s t : State} (h : step s = .next t) (hh : t.halted = true) :
    t.fault.code = 3 := by
  cases step_next h with
  | inFlight i hp hd hn he => exact exec_next_halted he hh
  | command w rest i hhost hy hw he => exact exec_next_halted he hh
  | reset rest hhost ht =>
    subst ht
    cases hh
  | illegal w rest why hhost hr hy hw ht =>
    subst ht
    exact absurd hr (not_running_of_halted hh)
  | data b rest hhost hr ho ht =>
    subst ht
    exact absurd hr (not_running_of_halted hh)
  | take rest hhost hr ht =>
    rw [ht, takeMove_halted] at hh
    exact absurd hr (not_running_of_halted hh)
  | rest hhost hr hp hd ht =>
    subst ht
    exact absurd hr (not_running_of_halted hh)

/-- Settles O33: no step but the abort's ends halted, whatever state it starts from. -/
theorem haltedRecordsAbort : Obligations.HaltedRecordsAbort :=
  ⟨nofun, fun _ _ _ h hh => step_next_halted h hh⟩

/-- The bounds hold along every run, by induction on its steps. -/
theorem State.WellKept.run {k : Nat} {s t : State} (hk : s.WellKept)
    (h : Sys2Proof.core.run k s = .next t) : t.WellKept := by
  induction k generalizing s with
  | zero =>
    cases h
    exact hk
  | succ k ih =>
    obtain ⟨u, hstep, hrest⟩ := run_succ_next h
    exact ih (stepKeepsBounds s u hk hstep) hrest

/-- Settles O38: the bounds hold at reset, whatever the host is going to do. -/
theorem runsNeverAbort : Obligations.RunsNeverAbort := by
  intro moves k t h
  have hk : t.WellKept := (resetWellKept.1.setHost moves).run h
  exact ⟨hk, hk.not_halted⟩

end Sys2Proof.Machine
end

section
/-! Power-on reset: the values it leaves, that every state can take it, and that nothing else leaves HALTED
or a fault; and INIT's literal values (rules R128, R139, R141). -/

namespace Sys2Proof.Machine

/-- Settles O34: the 75 registers of R27's table and the other elements are evaluated. -/
theorem resetValues : Obligations.ResetValues := by
  refine ⟨?_, ?_, rfl, rfl, rfl, rfl, rfl, rfl, rfl, rfl⟩ <;> decide

/-- Settles O11: INIT's effect with the IV written out, and the stop of a halted engine. -/
theorem initStartsMessage : Obligations.InitStartsMessage := by
  refine ⟨fun s hr => execInit_effect hr, fun s hh => ?_⟩
  rw [exec_not_running (not_running_of_halted hh), if_pos hh]

/-- The host's reset goes before a command in flight and asks neither HALTED nor FAULT (R128, R148). -/
theorem step_powerOnReset {s : State} {rest : List HostMove} (hh : s.host = .powerOnReset :: rest) :
    step s = .next (s.setHost rest).powerOnReset :=
  step_hostMove hh fun _ _ => .inr (by simp [State.resetNext, hh])

/-- Settles O35: a stopped engine whose host does not reset it answers no next state at all. -/
theorem powerOnResetRestoresEverything : Obligations.PowerOnResetRestoresEverything := by
  refine ⟨fun s rest hh => step_powerOnReset hh, fun s t h hleft => ?_⟩
  have hstopped : ¬ s.running := by
    rintro ⟨hhalted, hfault⟩
    obtain ⟨hh, -⟩ | ⟨hf, -⟩ := hleft
    · exact not_running_of_halted hh ⟨hhalted, hfault⟩
    · exact hf hfault
  by_contra hn
  rw [step_not_running hstopped (Bool.eq_false_iff.2 hn)] at h
  cases h

end Sys2Proof.Machine
end

section
/-! The host's duties, and what the model answers where it breaks one (rules R102, R114, R147, R148). -/

namespace Sys2Proof.Machine

/-- A running engine with no host move left, where no command in flight goes first. -/
theorem step_rest {s : State} (hr : s.running) (hh : s.host = [])
    (hwait : ∀ i, s.pending = some i → s.dataReady i = false) :
    step s = if s.pending.isSome then .refused .dataNotSent
      else if !s.digestOut.isEmpty then .refused .digestNotTaken
      else .next s := by
  rw [step_eq_hostStep fun i hi => .inl (hwait i hi), hostStep, hh]
  exact taken_running hr _

/-- The port has no move for a descriptor issued while READY = 0 (R147). -/
theorem step_command_busy {s : State} {w : Descriptor} {rest : List HostMove} (hr : s.running)
    (hy : s.ready = false) (hh : s.host = .command w :: rest)
    (hwait : ∀ i, s.pending = some i → s.dataReady i = false) :
    step s = .refused .issuedWhileBusy := by
  have hr' : (s.setHost rest).running := hr
  have hy' : ¬ (s.setHost rest).ready = true := Bool.eq_false_iff.1 hy
  rw [step_hostMove hh fun i hi => .inl (hwait i hi), hostMove, taken_running hr', commandMove,
    if_neg hy']

/-- Without a command in flight no byte is owed (R102, R123). -/
theorem step_data_not_owed {s : State} {b : Byte} {rest : List HostMove} (hr : s.running)
    (hh : s.host = .data b :: rest) (hp : s.pending = none) : step s = .refused .dataNotOwed := by
  have hr' : (s.setHost rest).running := hr
  have howes : ¬ (s.setHost rest).owesData = true := by simp [owesData_iff, hp]
  rw [step_hostMove hh (by simp [hp]), hostMove, taken_running hr', sendMove, if_neg howes]

/-- Settles O7: without a host move the step is `step_rest`'s, and the two ports refuse the others. -/
theorem hostDutiesAreNamed : Obligations.HostDutiesAreNamed := by
  refine ⟨fun s n hr hp hlt hh => ?_, fun s hr hp hd hh => ?_,
    fun s w rest hr hy hh hwait => step_command_busy hr hy hh hwait,
    fun s b rest hr hh hp => step_data_not_owed hr hh hp, fun s hr hy hh => ?_⟩
  · have hwait : s.dataReady (.update n) = false := decide_eq_false (Nat.not_le.2 hlt)
    rw [step_rest hr hh fun i hi => by rwa [← Option.some.inj (hp.symm.trans hi)], hp]
    rfl
  · rw [step_rest hr hh (by simp [hp])]
    simp [hp, hd]
  · obtain ⟨-, hp, hd⟩ := (ready_iff s).1 hy
    rw [step_rest hr hh (by simp [hp])]
    simp [hp, hd]

end Sys2Proof.Machine
end

section
/-! A host that meets its duties: INIT, UPDATEs with their data, FINAL and the taking of the digest, each
as a run through the ports, and HASH after HASH (rules R67, R113, R143, R145, R148). -/

namespace Sys2Proof.Machine

/-- Some number of steps leads from `s` to `t`. -/
def Reaches (s t : State) : Prop := ∃ k, Sys2Proof.core.run k s = .next t

theorem Reaches.refl (s : State) : Reaches s s := ⟨0, run_zero s⟩

theorem Reaches.trans {s t u : State} (h : Reaches s t) (h' : Reaches t u) : Reaches s u := by
  obtain ⟨j, hj⟩ := h
  obtain ⟨k, hk⟩ := h'
  exact ⟨j + k, (run_add k hj).trans hk⟩

theorem Reaches.step {s t u : State} (h : Machine.step s = .next t) (h' : Reaches t u) : Reaches s u :=
  .trans ⟨1, run_succ 0 h⟩ h'

/-- The engine is idle and running with empty channels; the host is going to make `moves` and has received
`got`. -/
structure Idle (s : State) (moves : List HostMove) (got : List Byte) : Prop where
  running : s.running
  pending_eq : s.pending = none
  dataIn_eq : s.dataIn = []
  digestOut_eq : s.digestOut = []
  host_eq : s.host = moves
  received_eq : s.received = got

/-- An idle engine between the commands of a message, of which it has absorbed `M`. -/
structure IdleHolding (s : State) (M : List Byte) (moves : List HostMove) (got : List Byte) : Prop
    extends Idle s moves got where
  isOpen : s.phase.isOpen = true
  holds : s.Holds M

variable {s : State} {M d got : List Byte} {rest : List HostMove}

theorem Idle.ready {moves : List HostMove} (h : Idle s moves got) : s.ready = true :=
  (ready_iff s).2 ⟨h.running.1, h.pending_eq, h.digestOut_eq⟩

/-- An idle engine runs the command whose encoding the host issues. -/
theorem Idle.step_encode {i : Instr} (h : Idle s (.command (encode i) :: rest) got)
    (hi : i.wf = true) : step s = exec i (s.setHost rest) :=
  step_command h.host_eq h.pending_eq h.digestOut_eq (decodeEncodeRoundTrip i hi)

/-- INIT opens the empty message. -/
theorem Idle.init (h : Idle s (.command (encode .init) :: rest) got) :
    ∃ t, Reaches s t ∧ IdleHolding t [] rest got := by
  have hr : (s.setHost rest).running := h.running
  refine ⟨_, .step ((h.step_encode rfl).trans (execInit_effect hr)) (.refl _), ?_⟩
  exact { h with host_eq := rfl, isOpen := rfl, holds := startMessage_holds _ }

/-- BIT_LEN counts the message's bits, so a total that fits passes UPDATE's check (R35, R124). -/
theorem State.Holds.bits_fit (h : s.Holds M) {n : Nat} (hl : 8 * (M.length + n) < 2 ^ 64) :
    s.bitLen.toNat + 8 * n < 2 ^ 64 := by
  rw [h.bitLen_eq]; omega

/-- An UPDATE with its data: it takes effect at once where there is no byte to wait for, and when its last
byte has arrived otherwise. Either way it is the effect on the state with just its data on the channel. -/
theorem IdleHolding.reaches_update
    (h : IdleHolding s M (.command (encode (.update d.length)) :: (d.map .data ++ rest)) got)
    (hd : d.length ≤ 2 ^ 32 - 1) (hl : 8 * (M.length + d.length) < 2 ^ 64)
    (hreset : rest.head? ≠ some .powerOnReset) :
    Reaches s (State.update d.length { s with host := rest, dataIn := d }) := by
  have hb := holds_bufLen_le h.holds
  have hbits := h.holds.bits_fit hl
  have hstep := h.step_encode (decide_eq_true hd)
  cases d with
  | nil =>
    have hsame : s.setHost rest = { s with host := rest, dataIn := [] } := by
      rw [State.setHost, ← h.dataIn_eq]
    rw [List.map_nil, List.nil_append, hsame] at hstep
    exact .step (hstep.trans (execUpdate_effect h.running h.isOpen hb hbits le_rfl)) (.refl _)
  | cons b ds =>
    have hwait := execUpdate_waits (n := (b :: ds).length) (s := s.setHost ((b :: ds).map .data ++ rest))
      h.running h.isOpen hb hbits
      (by rw [State.setHost_dataIn, h.dataIn_eq]; exact Nat.succ_pos _)
    have hrun := waitingUpdateCompletes
      ((s.setHost ((b :: ds).map .data ++ rest)).awaitData (.update (b :: ds).length))
      (b :: ds).length (b :: ds) rest h.running h.isOpen hb hbits rfl
      (by simp [h.dataIn_eq]) rfl hreset
    refine .step (hstep.trans hwait) ⟨_, hrun.trans ?_⟩
    -- nothing was in flight before, so what the run leaves in `pending` is what `s` held there
    rw [← h.pending_eq]
    simp only [State.awaitData, State.setHost, h.dataIn_eq, List.nil_append]

/-- An UPDATE with its data extends the message held by them. -/
theorem IdleHolding.update
    (h : IdleHolding s M (.command (encode (.update d.length)) :: (d.map .data ++ rest)) got)
    (hd : d.length ≤ 2 ^ 32 - 1) (hl : 8 * (M.length + d.length) < 2 ^ 64)
    (hreset : rest.head? ≠ some .powerOnReset) :
    ∃ t, Reaches s t ∧ IdleHolding t (M ++ d) rest got := by
  have hholds : State.Holds { s with host := rest, dataIn := d } M := { h.holds with }
  have hbits := h.holds.bits_fit hl
  have hext := hholds.update hl le_rfl
  rw [List.take_length] at hext
  obtain ⟨-, -, -, -, -, -, -, -, hdata, hhalted, hfault, hpend, hout, hhost, hrec, -⟩ :=
    update_spec d.length { s with host := rest, dataIn := d } (holds_bufLen_le hholds) hbits le_rfl
  refine ⟨_, h.reaches_update hd hl hreset, ?_⟩
  exact {
    running := ⟨hhalted.trans h.running.1, hfault.trans h.running.2⟩
    pending_eq := hpend.trans h.pending_eq
    dataIn_eq := hdata.trans List.drop_length
    digestOut_eq := hout.trans h.digestOut_eq
    host_eq := hhost
    received_eq := hrec.trans h.received_eq
    isOpen := rfl
    holds := hext }

/-- FINAL emits the digest of the message held, and the host takes it. -/
theorem IdleHolding.final
    (h : IdleHolding s M (.command (encode .final) :: (List.replicate 32 .take ++ rest)) got) :
    ∃ t, Reaches s t ∧ Idle t rest (got ++ sha256 M) ∧ t.phase = .finalized := by
  have hholds : (s.setHost (List.replicate 32 .take ++ rest)).Holds M := { h.holds with }
  have hb := holds_bufLen_le hholds
  have hstep := (h.step_encode rfl).trans (execFinal_effect h.running h.isOpen hb)
  have hdigest := hholds.finalize_digestOut
  obtain ⟨-, -, -, -, -, -, -, -, hphase, -, hhalted, hfault, hpend, hdata, hhost, hrec⟩ :=
    finalize_spec _ hb
  have hlen : (sha256 M).length = 32 := digestBytes_length _
  generalize (s.setHost (List.replicate 32 .take ++ rest)).finalize = u at *
  have hr : u.running := ⟨hhalted.trans h.running.1, hfault.trans h.running.2⟩
  rw [State.setHost_digestOut, h.digestOut_eq, List.nil_append] at hdigest
  have htake := run_takes (sha256 M) (rest := rest) hr (hpend.trans h.pending_eq) hdigest
    (by rw [hhost, hlen]; rfl)
  refine ⟨_, .step hstep ⟨_, htake⟩, ?_, hphase⟩
  exact {
    running := hr
    pending_eq := hpend.trans h.pending_eq
    dataIn_eq := hdata.trans h.dataIn_eq
    digestOut_eq := rfl
    host_eq := rfl
    received_eq := congrArg (· ++ _) (hrec.trans h.received_eq) }

/-- The host's moves for a command that is not FINAL (R148). -/
theorem Assembled.moves_encode {i : Instr} (hi : i.wf = true) (hf : i ≠ .final) (d : List Byte) :
    Assembled.moves ⟨encode i, d⟩ = .command (encode i) :: d.map .data := by
  have hdec := decodeEncodeRoundTrip i hi
  simp [Assembled.moves, hdec, hf]

theorem Assembled.moves_final :
    Assembled.moves ⟨encode .final, []⟩ = .command (encode .final) :: List.replicate 32 .take := by
  rw [Assembled.moves, if_pos (decodeEncodeRoundTrip .final rfl)]
  rfl

theorem hostProgram_cons (c : Assembled) (cs : List Assembled) :
    hostProgram (c :: cs) = c.moves ++ hostProgram cs := List.flatMap_cons

/-- A host that issues commands does not begin with a reset. -/
theorem hostProgram_head?_ne_reset (cs : List Assembled) (h : rest.head? ≠ some .powerOnReset) :
    (hostProgram cs ++ rest).head? ≠ some .powerOnReset := by
  cases cs with
  | nil => exact h
  | cons c cs => simp [hostProgram_cons, Assembled.moves]

/-- One UPDATE per piece, each followed by its bytes (R65). -/
abbrev assembledUpdates (pieces : List (List Byte)) : List Assembled :=
  pieces.map fun d => ⟨encode (.update d.length), d⟩

theorem hostProgram_updates_cons (pieces : List (List Byte)) (hd : d.length ≤ 2 ^ 32 - 1) :
    hostProgram (assembledUpdates (d :: pieces)) ++ rest =
      .command (encode (.update d.length)) ::
        (d.map .data ++ (hostProgram (assembledUpdates pieces) ++ rest)) := by
  rw [assembledUpdates, List.map_cons, hostProgram_cons,
    Assembled.moves_encode (i := .update d.length) (decide_eq_true hd) nofun, List.append_assoc,
    List.cons_append]

/-- UPDATEs one after the other extend the message held by their pieces, by induction on these. -/
theorem IdleHolding.updates (pieces : List (List Byte)) {s : State} {M : List Byte}
    (h : IdleHolding s M (hostProgram (assembledUpdates pieces) ++ rest) got)
    (hd : ∀ d ∈ pieces, d.length ≤ 2 ^ 32 - 1)
    (hl : 8 * (M.length + pieces.flatten.length) < 2 ^ 64)
    (hreset : rest.head? ≠ some .powerOnReset) :
    ∃ t, Reaches s t ∧ IdleHolding t (M ++ pieces.flatten) rest got := by
  induction pieces generalizing s M with
  | nil => exact ⟨s, .refl s, by simpa [hostProgram] using h⟩
  | cons d pieces ih =>
    rw [List.forall_mem_cons] at hd
    rw [List.flatten_cons, List.length_append] at hl
    rw [hostProgram_updates_cons _ hd.1] at h
    obtain ⟨t, hst, ht⟩ := h.update hd.1 (by omega) (hostProgram_head?_ne_reset _ hreset)
    obtain ⟨u, htu, hu⟩ := ih ht hd.2 (by rw [List.length_append]; omega)
    rw [List.append_assoc] at hu
    exact ⟨u, hst.trans htu, by rwa [List.flatten_cons]⟩

/-- The host's moves for a whole message. -/
theorem hostProgram_message (pieces : List (List Byte)) :
    hostProgram ([⟨encode .init, []⟩] ++ assembledUpdates pieces ++ [⟨encode .final, []⟩]) ++ rest =
      .command (encode .init) :: (hostProgram (assembledUpdates pieces) ++
        .command (encode .final) :: (List.replicate 32 .take ++ rest)) := by
  rw [hostProgram, List.flatMap_append, List.flatMap_append, List.flatMap_singleton,
    List.flatMap_singleton, Assembled.moves_final, Assembled.moves_encode (i := .init) rfl nofun,
    List.map_nil, List.append_assoc, List.append_assoc]
  rfl

/-- A whole message: INIT, its pieces, FINAL and the taking of the digest. -/
theorem Idle.message {pieces : List (List Byte)}
    (h : Idle s (hostProgram ([⟨encode .init, []⟩] ++ assembledUpdates pieces ++
      [⟨encode .final, []⟩]) ++ rest) got)
    (hd : ∀ d ∈ pieces, d.length ≤ 2 ^ 32 - 1) (hl : 8 * pieces.flatten.length < 2 ^ 64) :
    ∃ t, Reaches s t ∧ Idle t rest (got ++ sha256 pieces.flatten) ∧ t.phase = .finalized := by
  rw [hostProgram_message] at h
  obtain ⟨t, hst, ht⟩ := h.init
  obtain ⟨u, htu, hu⟩ := ht.updates pieces hd (by simpa using hl) nofun
  obtain ⟨v, huv, hv⟩ := hu.final
  exact ⟨v, (hst.trans htu).trans huv, hv⟩

/-- Settles O26: a whole message from the idle state. -/
theorem hostReceivesSha256 : Obligations.HostReceivesSha256 := by
  intro s pieces rest hr hp hin hout hd hl hh
  have h : Idle s _ s.received := ⟨hr, hp, hin, hout, hh, rfl⟩
  obtain ⟨t, ⟨k, hrun⟩, ht, hphase⟩ := h.message hd hl
  exact ⟨k, t, hrun, ht.received_eq, ht.host_eq, ht.running, ht.ready, ht.dataIn_eq, hphase⟩

/-- HASH of a message, which is one UPDATE per piece of R67's expansion. -/
theorem Idle.hash (h : Idle s (hostProgram (assembleHash M) ++ rest) got)
    (hl : 8 * M.length < 2 ^ 64) : ∃ t, Reaches s t ∧ Idle t rest (got ++ sha256 M) := by
  obtain ⟨pieces, hpieces, hflat, -, -, hd, -⟩ := hashExpandsToFewestUpdates M
  subst hflat
  rw [hpieces] at h
  obtain ⟨t, hst, ht, -⟩ := h.message hd hl
  exact ⟨t, hst, ht⟩

/-- HASH after HASH, by induction on the messages: the host receives whole digests, so each new one is the
next one shown. -/
theorem Idle.hashes (messages : List (List Byte)) {s : State} {got : List Byte}
    (h : Idle s (hostProgram (messages.flatMap assembleHash)) got) (hgot : got.length % 32 = 0)
    (hl : ∀ M ∈ messages, 8 * M.length < 2 ^ 64) :
    ∃ t got', Reaches s t ∧ Idle t [] got' ∧ digestsIn got' = digestsIn got ++ messages.map sha256 := by
  induction messages generalizing s got with
  | nil => exact ⟨s, got, .refl s, h, by simp⟩
  | cons M messages ih =>
    rw [List.forall_mem_cons] at hl
    rw [List.flatMap_cons, hostProgram, List.flatMap_append] at h
    have hlen : (sha256 M).length = 32 := digestBytes_length _
    obtain ⟨t, hst, ht⟩ := Idle.hash h hl.1
    obtain ⟨u, got', htu, hu, hshown⟩ := ih ht (by rw [List.length_append, hlen]; omega) hl.2
    refine ⟨u, got', hst.trans htu, hu, ?_⟩
    rw [hshown, digestsIn_append hgot hlen, List.append_assoc, List.singleton_append, List.map_cons]

/-- An idle engine whose host has no move left has ended its run well (R145). -/
theorem Idle.shows (h : Idle s [] got) : s.shows = some (digestsIn got) := by
  rw [State.shows, if_pos ⟨h.host_eq, h.ready, h.running.2⟩, h.received_eq]

/-- Power-on reset leaves the engine idle, whatever it was in, with nothing received (R139, R145). -/
theorem idle_powerOnReset (s : State) : Idle s.powerOnReset s.host [] :=
  ⟨⟨rfl, rfl⟩, rfl, rfl, rfl, rfl, rfl⟩

/-- Settles O53: the third clause is `Idle.hashes`, and the second an idle engine's that has received
nothing. -/
theorem runShowsItsDigests : Obligations.RunShowsItsDigests := by
  refine ⟨fun s hend => if_neg hend, fun s t hreset h hhost => ?_,
    fun s messages hr hp hin hout hwhole hl hh => ?_⟩
  · obtain ⟨rest, hh⟩ : ∃ rest, s.host = .powerOnReset :: rest := by
      simpa [State.resetNext, List.head?_eq_some_iff] using hreset
    rw [step_powerOnReset hh] at h
    cases h
    have hidle := idle_powerOnReset (s.setHost rest)
    exact Idle.shows { hidle with host_eq := hhost }
  · have h : Idle s _ s.received := ⟨hr, hp, hin, hout, hh, rfl⟩
    obtain ⟨t, got', ⟨k, hrun⟩, ht, hshown⟩ := h.hashes messages hwhole hl
    exact ⟨k, t, hrun, by rw [ht.shows, hshown]⟩

end Sys2Proof.Machine
end

section
/-! The decoder vectors V-D1 to V-D14 of 95_test_vectors.md, read by the decoder's own equations. -/

namespace Sys2Proof

/-- INIT and FINAL have no count: with LEN ≠ 0 neither decodes (R59, R61). -/
theorem decode_of_lenField_ne_zero {w : Descriptor} (hr : rsvdField w = 0)
    (ho : opField w = 1 ∨ opField w = 3) (hl : lenField w ≠ 0) :
    decode w = .illegal .lengthNotZero := by
  rcases ho with ho | ho
  · rw [decode_of_init hr ho, if_neg hl]
  · rw [decode_of_final hr ho, if_neg hl]

/-- Settles O5: a legal vector is its command's exact descriptor, and an illegal one has the field that
its reason names; the fields of fixed words are evaluated. -/
theorem sampleDescriptorsDecode : Obligations.SampleDescriptorsDecode := by
  refine ⟨?d1, ?d2, ?d3, ?d4, ?d5, ?d6, ?d7, ?d8, ?d9, ?d10, ?d11, ?d12, ?d13, ?d14⟩
  case d2 => exact decode_eq_init_iff.2 rfl
  case d3 | d4 | d5 => exact decode_eq_update_iff.2 (by decide)
  case d6 => exact decode_eq_final_iff.2 rfl
  case d7 | d8 => exact decode_of_lenField_ne_zero (by decide) (by decide) (by decide)
  case d1 | d9 | d10 => exact decode_of_reservedOp (by decide) (by decide)
  case d11 | d12 | d13 | d14 => exact decode_of_rsvd (by decide)

end Sys2Proof
end

section
/-! A data byte that the host owes (rules R42, R102). -/

namespace Sys2Proof.Machine

/-- Settles O8: the step is the host's, and the port takes the byte that is owed. -/
theorem dataByteArrives : Obligations.DataByteArrives :=
  fun _ _ _ _ hr hh hp hlt => step_data hr hh hp hlt

end Sys2Proof.Machine
end

section
/-! The vectors V-C1 and V-C3 of 95_test_vectors.md: COMPRESS is cut at its rounds, so that what is
evaluated is the working variables after round 63, which V-C3 prints. -/

namespace Sys2Proof.Machine

/-- COMPRESS from the working variables after its rounds (R81, R82). -/
theorem compress_of_runRounds {H : HashState} {B : List Byte} {v : WorkVars}
    (h : runRounds (seedVars H) (schedule B) = v) : compress H B = feedForward H v := by
  rw [compress, h]

/-- V-C1: every W[t] of the zero block is 0 (R77). -/
theorem schedule_zeroBlock : schedule (List.replicate 64 0x00) = List.replicate 64 0 := by
  refine List.eq_replicate_iff.2 ⟨schedule_length _, fun w hw => ?_⟩
  obtain ⟨t, ht, rfl⟩ := List.getElem_of_mem hw
  rw [← List.getD_eq_getElem _ 0 ht]
  exact schedule_getD_eq_zero (by decide) (by rwa [schedule_length] at ht)

/-- V-C1: the working variables after round 63. -/
theorem runRounds_zeroBlock :
    runRounds (seedVars State.reset.h) (schedule (List.replicate 64 0x00)) =
      ⟨0x7ca51614, 0x425c3ba8, 0xce54dd2f, 0xc2020ae7, 0xb6e574d1, 0x98136d0f, 0xae7e26cc,
        0xbf0be7a6⟩ := by
  rw [schedule_zeroBlock]
  decide +kernel

/-- V-C3: the working variables after round 63. -/
theorem runRounds_abcBlock :
    runRounds (seedVars iv) (schedule ([0x61, 0x62, 0x63, 0x80] ++ List.replicate 59 0x00 ++ [0x18])) =
      ⟨0x506e3058, 0xd39a2165, 0x04d24d6c, 0xb85e2ce9, 0x5ef50f24, 0xfb121210, 0x948d25b6,
        0x961f4894⟩ := by
  decide +kernel

/-- Settles O49: the feed-forward of the working variables after round 63. -/
theorem compressWorkedValues : Obligations.CompressWorkedValues :=
  ⟨(compress_of_runRounds runRounds_zeroBlock).trans (by decide),
    (compress_of_runRounds runRounds_abcBlock).trans (by decide)⟩

end Sys2Proof.Machine
end
